-- ==== Sys2Proof/Word.lean ====
section
/-! DEFINITION. The word types of the block (00_scope.md R8, R10): bytes and 16-bit values as bit vectors, text
as a list of characters. Field extraction, sign extension and byte order are in Decode.lean and Machine/. -/

namespace Sys2Proof

/-- `u8`: one byte of the input buffer (R8). -/
abbrev Byte := BitVec 8

/-- `u16`, and the bits of an `i16`, whose value is the two's-complement reading `toInt` (R8). -/
abbrev Half := BitVec 16

/-- A text: a list of characters (R10). -/
abbrev Text := List Char

end Sys2Proof
end

