-- ==== Sys2Proof/Syntax.lean ====
section
/-! DEFINITION. The instructions of the block: one constructor of `Instr` per row of spec/opcode_table.json, in the
table's order, with the operands its encoding carries (30_encoding.md R70-R72). -/

namespace Sys2Proof

/-- The record kinds of 10_state.md R32 (codes 0 to 6, in order). UNKNOWN is no kind of a record: the classifier
answers it as the absence of a kind (30_encoding.md R73). -/
inductive Kind where
  | movRmReg    -- MOV_RM_REG
  | movImmRm    -- MOV_IMM_RM
  | movImmReg   -- MOV_IMM_REG
  | phMemToAcc  -- PH_MEM_TO_ACC
  | phAccToMem  -- PH_ACC_TO_MEM
  | phRmToSreg  -- PH_RM_TO_SREG
  | phSregToRm  -- PH_SREG_TO_RM
  deriving DecidableEq, Repr

/-- The four addressing modes (46_addressing_resolver.md R210). -/
inductive Mode where
  | mem0   -- MEM0: no-displacement memory
  | mem8   -- MEM8: 8-bit-displacement memory
  | mem16  -- MEM16: 16-bit-displacement memory
  | reg    -- REG: register direct
  deriving DecidableEq, Repr

/-- The operand that a ModRM byte's `mod` and `rm` fields encode together with the displacement or address bytes
after it (30_encoding.md R75, 46_addressing_resolver.md R214). -/
inductive RmForm where
  /-- `mod = 11`: the register selected by `rm`. -/
  | reg (rm : BitVec 3)
  /-- `mod = 00`, `rm = 110`: a 16-bit direct address follows. -/
  | direct (addr : Half)
  /-- `mod = 00`, `rm ≠ 110` (checked in WellFormed.lean): no displacement. -/
  | based (rm : BitVec 3)
  /-- `mod = 01`: an 8-bit displacement follows. -/
  | based8 (rm : BitVec 3) (disp : Byte)
  /-- `mod = 10`: a 16-bit displacement follows. -/
  | based16 (rm : BitVec 3) (disp : Half)
  deriving DecidableEq, Repr

/-- One instruction of the stream. `ign` is the don't-care field of C6/C7 (ModRM bits 5:3) and the `w` of A0-A3 the
undecoded low bit (30_encoding.md R79): they are kept so that an instruction names its bytes exactly. -/
inductive Instr where
  /-- 88: `mov r/m8, r8` (R121). -/
  | movRm8R8 (dst : RmForm) (src : BitVec 3)
  /-- 89: `mov r/m16, r16` (R122). -/
  | movRm16R16 (dst : RmForm) (src : BitVec 3)
  /-- 8A: `mov r8, r/m8` (R123). -/
  | movR8Rm8 (dst : BitVec 3) (src : RmForm)
  /-- 8B: `mov r16, r/m16` (R124). -/
  | movR16Rm16 (dst : BitVec 3) (src : RmForm)
  /-- C6: `mov r/m8, imm8` (R141). -/
  | movRm8Imm8 (ign : BitVec 3) (dst : RmForm) (imm : Byte)
  /-- C7: `mov r/m16, imm16` (R142). -/
  | movRm16Imm16 (ign : BitVec 3) (dst : RmForm) (imm : Half)
  /-- B0-BF: `mov r, imm` (R160). With `w = 0` the immediate is below 256 (checked in WellFormed.lean). -/
  | movRImm (w : BitVec 1) (reg : BitVec 3) (imm : Half)
  /-- A0, A1: the placeholder form memory → accumulator (R181). -/
  | phMemToAcc (w : BitVec 1)
  /-- A2, A3: the placeholder form accumulator → memory (R182). -/
  | phAccToMem (w : BitVec 1)
  /-- 8E: the placeholder form register/memory → segment register (R183). -/
  | phRmToSreg
  /-- 8C: the placeholder form segment register → register/memory (R184). -/
  | phSregToRm
  /-- Any of the 228 unmatched bytes (R200-R202; checked in WellFormed.lean). -/
  | unknownOpcode (op : Byte)
  deriving DecidableEq, Repr

end Sys2Proof
end

