-- ==== Sys2Proof/Decode.lean ====
section
/-! DEFINITION. The opcode classifier, the decoder from bytes to an instruction, the encoder, and the lengths
(30_encoding.md). The decoder is total: on every byte list it answers an instruction with the bytes left over, or a
rejection by name. -/

namespace Sys2Proof

/-- One row of the classification table (R73): it matches when `op & mask = pattern`. -/
structure OpcodeRow where
  mask : Byte
  pattern : Byte
  kind : Kind
  deriving DecidableEq, Repr

/-- Rows 1-7 of R73, in their priority order. Row 8 (any byte: UNKNOWN) is the case in which none of them matches. -/
def opcodeRows : List OpcodeRow :=
  [ ⟨0xFC#8, 0x88#8, .movRmReg⟩,
    ⟨0xFE#8, 0xC6#8, .movImmRm⟩,
    ⟨0xF0#8, 0xB0#8, .movImmReg⟩,
    ⟨0xFE#8, 0xA0#8, .phMemToAcc⟩,
    ⟨0xFE#8, 0xA2#8, .phAccToMem⟩,
    ⟨0xFF#8, 0x8E#8, .phRmToSreg⟩,
    ⟨0xFF#8, 0x8C#8, .phSregToRm⟩ ]

/-- R73: `(op & mask) = match`. -/
def OpcodeRow.accepts (r : OpcodeRow) (op : Byte) : Bool := op &&& r.mask == r.pattern

/-- `Classify(op)` (R73): the kind of the first row that matches; `none` is UNKNOWN. -/
def classify (op : Byte) : Option Kind := (opcodeRows.find? (·.accepts op)).map (·.kind)

/-- R71: `w = op[0]` of `100010dw` and `1100011w`. -/
def opW (op : Byte) : BitVec 1 := op.extractLsb' 0 1

/-- R71: `d = op[1]` of `100010dw`. -/
def opD (op : Byte) : BitVec 1 := op.extractLsb' 1 1

/-- R71: `w = op[3]` of `1011wreg`. -/
def opRegW (op : Byte) : BitVec 1 := op.extractLsb' 3 1

/-- R71: `reg = op[2:0]` of `1011wreg`. -/
def opReg (op : Byte) : BitVec 3 := op.extractLsb' 0 3

/-- R72: `mod = modrm[7:6]`. -/
def modrmMod (modrm : Byte) : BitVec 2 := modrm.extractLsb' 6 2

/-- R72: `reg = modrm[5:3]`. -/
def modrmReg (modrm : Byte) : BitVec 3 := modrm.extractLsb' 3 3

/-- R72: `rm = modrm[2:0]`. -/
def modrmRm (modrm : Byte) : BitVec 3 := modrm.extractLsb' 0 3

/-- The addressing mode that a mod field names (46_addressing_resolver.md R210): an explicit total match. -/
def modeOfMod (mod : BitVec 2) : Mode :=
  match mod[1], mod[0] with
  | false, false => .mem0
  | false, true => .mem8
  | true, false => .mem16
  | true, true => .reg

/-- The mod field of an addressing mode (R210). -/
def Mode.modBits : Mode → BitVec 2
  | .mem0 => 0b00#2
  | .mem8 => 0b01#2
  | .mem16 => 0b10#2
  | .reg => 0b11#2

/-- The little-endian 16-bit value of two bytes, the first at the lower offset (20_memory.md R51). -/
def halfOfBytes (lo hi : Byte) : Half := hi ++ lo

/-- The two bytes of a 16-bit field in stream order, low byte first (R51). -/
def bytesOfHalf (h : Half) : List Byte := [h.extractLsb' 0 8, h.extractLsb' 8 8]

/-- The addressing mode of an r/m operand (R210, R214). -/
def RmForm.mode : RmForm → Mode
  | .reg _ => .reg
  | .direct _ => .mem0
  | .based _ => .mem0
  | .based8 _ _ => .mem8
  | .based16 _ _ => .mem16

/-- The r/m field of an r/m operand (R214); the direct address stands at `rm = 110`. -/
def RmForm.rm : RmForm → BitVec 3
  | .reg rm => rm
  | .direct _ => 0b110#3
  | .based rm => rm
  | .based8 rm _ => rm
  | .based16 rm _ => rm

/-- `dispLen(mod, rm)` (R75). -/
def dispLen (mode : Mode) (rm : BitVec 3) : Nat :=
  match mode with
  | .mem0 => if rm = 0b110#3 then 2 else 0
  | .mem8 => 1
  | .mem16 => 2
  | .reg => 0

/-- `immLen(w) = 1 + w` (R75). -/
def immLen (w : BitVec 1) : Nat := 1 + w.toNat

/-- The length of an instruction in bytes (R75). -/
def Instr.length : Instr → Nat
  | .movRm8R8 m _ => 2 + dispLen m.mode m.rm
  | .movRm16R16 m _ => 2 + dispLen m.mode m.rm
  | .movR8Rm8 _ m => 2 + dispLen m.mode m.rm
  | .movR16Rm16 _ m => 2 + dispLen m.mode m.rm
  | .movRm8Imm8 _ m _ => 2 + dispLen m.mode m.rm + immLen 0#1
  | .movRm16Imm16 _ m _ => 2 + dispLen m.mode m.rm + immLen 1#1
  | .movRImm w _ _ => 1 + immLen w
  | .phMemToAcc _ => 1
  | .phAccToMem _ => 1
  | .phRmToSreg => 1
  | .phSregToRm => 1
  | .unknownOpcode _ => 1

/-- The length that R75 gives the instruction whose first bytes these are; a form whose ModRM byte is missing needs at
least the two bytes before its displacement. -/
def requiredLength : List Byte → Nat
  | [] => 1
  | op :: bs =>
    match classify op with
    | some .movRmReg => 2 + (bs.head?.map fun m => dispLen (modeOfMod (modrmMod m)) (modrmRm m)).getD 0
    | some .movImmRm =>
      2 + (bs.head?.map fun m => dispLen (modeOfMod (modrmMod m)) (modrmRm m)).getD 0 + immLen (opW op)
    | some .movImmReg => 1 + immLen (opRegW op)
    | some .phMemToAcc => 1
    | some .phAccToMem => 1
    | some .phRmToSreg => 1
    | some .phSregToRm => 1
    | none => 1

/-- The greatest instruction length (R80). -/
def maxInstrLen : Nat := 6

/-! ### The decoder -/

/-- Why a byte list is not decoded. -/
inductive DecodeError where
  /-- The list is empty: there is no opcode byte. The step never asks then (40_decode_cycle.md R101). -/
  | noOpcode
  /-- The list ends before a byte that its recognised opcode requires (60_exceptions.md R271). -/
  | truncated
  deriving DecidableEq, Repr

/-- `Need(c, 1)` and the read of one byte (00_scope.md R9). -/
def needByte : List Byte → Except DecodeError (Byte × List Byte)
  | b :: bs => .ok (b, bs)
  | [] => .error .truncated

/-- `Need(c, 2)` and the little-endian read of two bytes (R9, R51). -/
def needHalf : List Byte → Except DecodeError (Half × List Byte)
  | lo :: hi :: bs => .ok (halfOfBytes lo hi, bs)
  | [_] => .error .truncated
  | [] => .error .truncated

/-- The immediate of width `w`: one byte zero-extended, or two bytes (R76). -/
def needImm (w : BitVec 1) (bs : List Byte) : Except DecodeError (Half × List Byte) :=
  if w = 0#1 then do
    let (b, bs) ← needByte bs
    return (b.setWidth 16, bs)
  else needHalf bs

/-- The addressing read of `ReadRM` (46_addressing_resolver.md R214). -/
def readRmForm (mod : BitVec 2) (rm : BitVec 3) (bs : List Byte) : Except DecodeError (RmForm × List Byte) :=
  match modeOfMod mod with
  | .reg => return (.reg rm, bs)
  | .mem0 =>
    if rm = 0b110#3 then do
      let (a, bs) ← needHalf bs
      return (.direct a, bs)
    else return (.based rm, bs)
  | .mem8 => do
    let (d, bs) ← needByte bs
    return (.based8 rm d, bs)
  | .mem16 => do
    let (d, bs) ← needHalf bs
    return (.based16 rm d, bs)

/-- The row of 88-8B that the bits `d` and `w` select (R74, R121-R124). -/
def rmRegInstr (d w : BitVec 1) (reg : BitVec 3) (m : RmForm) : Instr :=
  if d = 0#1 then
    if w = 0#1 then .movRm8R8 m reg else .movRm16R16 m reg
  else
    if w = 0#1 then .movR8Rm8 reg m else .movR16Rm16 reg m

/-- The reads of `DecodeRmReg` (41_mov_rm_reg.md R120). -/
def decodeRmReg (op : Byte) (bs : List Byte) : Except DecodeError (Instr × List Byte) := do
  let (modrm, bs) ← needByte bs
  let (m, bs) ← readRmForm (modrmMod modrm) (modrmRm modrm) bs
  return (rmRegInstr (opD op) (opW op) (modrmReg modrm) m, bs)

/-- The reads of `DecodeImmRm` (42_mov_imm_rm.md R140): the addressing read first, the data read second (R143). -/
def decodeImmRm (op : Byte) (bs : List Byte) : Except DecodeError (Instr × List Byte) := do
  let (modrm, bs) ← needByte bs
  let (m, bs) ← readRmForm (modrmMod modrm) (modrmRm modrm) bs
  if opW op = 0#1 then do
    let (imm, bs) ← needByte bs
    return (.movRm8Imm8 (modrmReg modrm) m imm, bs)
  else do
    let (imm, bs) ← needHalf bs
    return (.movRm16Imm16 (modrmReg modrm) m imm, bs)

/-- The read of `DecodeImmReg` (43_mov_imm_reg.md R160). -/
def decodeImmReg (op : Byte) (bs : List Byte) : Except DecodeError (Instr × List Byte) := do
  let (imm, bs) ← needImm (opRegW op) bs
  return (.movRImm (opRegW op) (opReg op) imm, bs)

/-- Reads one instruction from the front of a byte list: classify the opcode byte, then read what its kind needs
(40_decode_cycle.md R102, R105). Every byte that no row matches is an instruction too, the unknown opcode. -/
def decode : List Byte → Except DecodeError (Instr × List Byte)
  | [] => .error .noOpcode
  | op :: bs =>
    match classify op with
    | some .movRmReg => decodeRmReg op bs
    | some .movImmRm => decodeImmRm op bs
    | some .movImmReg => decodeImmReg op bs
    | some .phMemToAcc => .ok (.phMemToAcc (opW op), bs)
    | some .phAccToMem => .ok (.phAccToMem (opW op), bs)
    | some .phRmToSreg => .ok (.phRmToSreg, bs)
    | some .phSregToRm => .ok (.phSregToRm, bs)
    | none => .ok (.unknownOpcode op, bs)

/-! ### The encoder -/

/-- The ModRM byte `mod reg rm` (R72). -/
def modrmByte (mod : BitVec 2) (reg rm : BitVec 3) : Byte := mod ++ reg ++ rm

/-- The displacement or direct-address bytes of an r/m operand (R75, R76). -/
def RmForm.dispBytes : RmForm → List Byte
  | .reg _ => []
  | .direct a => bytesOfHalf a
  | .based _ => []
  | .based8 _ d => [d]
  | .based16 _ d => bytesOfHalf d

/-- The ModRM byte and the bytes after it that belong to the r/m operand (R70). -/
def rmBytes (reg : BitVec 3) (m : RmForm) : List Byte :=
  modrmByte m.mode.modBits reg m.rm :: m.dispBytes

/-- The immediate bytes of width `w` (R76). -/
def immBytes (w : BitVec 1) (imm : Half) : List Byte :=
  if w = 0#1 then [imm.setWidth 8] else bytesOfHalf imm

/-- The opcode byte of an instruction (R71). -/
def Instr.opcode : Instr → Byte
  | .movRm8R8 _ _ => 0b10001000#8
  | .movRm16R16 _ _ => 0b10001001#8
  | .movR8Rm8 _ _ => 0b10001010#8
  | .movR16Rm16 _ _ => 0b10001011#8
  | .movRm8Imm8 _ _ _ => 0b11000110#8
  | .movRm16Imm16 _ _ _ => 0b11000111#8
  | .movRImm w reg _ => 0b1011#4 ++ w ++ reg
  | .phMemToAcc w => 0b1010000#7 ++ w
  | .phAccToMem w => 0b1010001#7 ++ w
  | .phRmToSreg => 0b10001110#8
  | .phSregToRm => 0b10001100#8
  | .unknownOpcode op => op

/-- The bytes after the opcode, in the field order of R70: ModRM, displacement, data. -/
def Instr.operandBytes : Instr → List Byte
  | .movRm8R8 m reg => rmBytes reg m
  | .movRm16R16 m reg => rmBytes reg m
  | .movR8Rm8 reg m => rmBytes reg m
  | .movR16Rm16 reg m => rmBytes reg m
  | .movRm8Imm8 ign m imm => rmBytes ign m ++ [imm]
  | .movRm16Imm16 ign m imm => rmBytes ign m ++ bytesOfHalf imm
  | .movRImm w _ imm => immBytes w imm
  | .phMemToAcc _ => []
  | .phAccToMem _ => []
  | .phRmToSreg => []
  | .phSregToRm => []
  | .unknownOpcode _ => []

/-- The bytes of an instruction, in stream order. -/
def encode (i : Instr) : List Byte := i.opcode :: i.operandBytes

/-! ### Words numbered as spec/opcode_table.json numbers them -/

/-- The lowest `n` bytes of a number, the least significant first. -/
def bytesOfNat : Nat → Nat → List Byte
  | 0, _ => []
  | n + 1, w => BitVec.ofNat 8 w :: bytesOfNat n (w / 256)

/-- The bytes of a table word in stream order: byte `k` of the instruction is bits `8k+7..8k`, and every bit above
`nbits` is 0, up to the longest instruction. -/
def tableBytes (nbits w : Nat) : List Byte := bytesOfNat maxInstrLen (w % 2 ^ nbits)

/-- The instruction that the decoder reads from a table word. -/
def decodeTableWord (nbits w : Nat) : Option Instr :=
  match decode (tableBytes nbits w) with
  | .ok (i, _) => some i
  | .error _ => none

end Sys2Proof
end

