-- ==== Sys2Proof/Machine/Record.lean ====
section
/-! DEFINITION. The decoded-instruction record and the operand descriptors it holds (10_state.md R30, R31). Every
open field of R30's table is an `Option`: an absent field is `none`. -/

namespace Sys2Proof.Machine

/-- An operand size: the width keyword of a memory operand, and the width 8 or 16 of an immediate (R31). -/
inductive Width where
  | byte
  | word
  deriving DecidableEq, Repr

/-- The addressing descriptor (R31). No address is computed from it (46_addressing_resolver.md R223). -/
inductive EA where
  /-- `mod = 00`, `rm = 110`. -/
  | direct (addr : Half)
  /-- `mod = 00`, `rm ≠ 110`. -/
  | based (rm : BitVec 3)
  /-- `mod = 01` or `mod = 10`; the displacement is the `i16` that its bits read as in two's complement. -/
  | basedDisp (rm : BitVec 3) (disp : Half)
  deriving DecidableEq, Repr

/-- An operand descriptor (R31). -/
inductive Operand where
  /-- A register, named by its key `{w, sel}`. -/
  | reg (key : BitVec 4)
  /-- A memory operand with its width keyword, if it carries one. -/
  | mem (ea : EA) (kw : Option Width)
  /-- An immediate; below 256 when its width is 8. -/
  | imm (value : Half) (width : Width)
  deriving DecidableEq, Repr

/-- The record's `disp` field (R31). The first two hold the bits of an `i16`. -/
inductive Disp where
  | d8 (disp : Half)
  | d16 (disp : Half)
  | directAddr (addr : Half)
  deriving DecidableEq, Repr

/-- A decoded-instruction record (R30). -/
structure Record where
  kind   : Kind
  /-- The offset of the opcode byte. -/
  pos    : Nat
  /-- The bytes consumed, 1 to 6. -/
  len    : Nat
  opcode : Byte
  w      : Option (BitVec 1)
  d      : Option (BitVec 1)
  mode   : Option Mode
  reg    : Option (BitVec 3)
  rm     : Option (BitVec 3)
  disp   : Option Disp
  /-- The raw immediate, zero-extended when `w = 0`. -/
  imm    : Option Half
  dst    : Option Operand
  src    : Option Operand
  deriving DecidableEq, Repr

end Sys2Proof.Machine
end

