-- ==== Sys2Proof/Machine/Operands.lean ====
section
/-! DEFINITION. Operand descriptors: what each operand form of an instruction becomes in its record
(46_addressing_resolver.md R214, 47_register_namer.md R240, 30_encoding.md R76). -/

namespace Sys2Proof.Machine

/-- The register key `{w, sel}` (R240): `w` is its high bit. -/
def regKey (w : BitVec 1) (sel : BitVec 3) : BitVec 4 := w ++ sel

/-- `sext_16(b)` (00_scope.md R8). -/
def sext16 (b : Byte) : Half := b.signExtend 16

/-- `zext_16(b)` (R8). -/
def zext16 (b : Byte) : Half := b.setWidth 16

/-- The operand that `ReadRM` answers (R214); `kw` is the width keyword of a memory operand. -/
def rmOperand (w : BitVec 1) (kw : Option Width) : RmForm → Operand
  | .reg rm => .reg (regKey w rm)
  | .direct a => .mem (.direct a) kw
  | .based rm => .mem (.based rm) kw
  | .based8 rm d => .mem (.basedDisp rm (sext16 d)) kw
  | .based16 rm d => .mem (.basedDisp rm d) kw

/-- The displacement field that `ReadRM` answers (R214). -/
def rmDisp : RmForm → Option Disp
  | .reg _ => none
  | .direct a => some (.directAddr a)
  | .based _ => none
  | .based8 _ d => some (.d8 (sext16 d))
  | .based16 _ d => some (.d16 d)

/-- The width that a width bit selects: 8-bit for 0, 16-bit for 1 (30_encoding.md R71). -/
def widthOf (w : BitVec 1) : Width := if w = 0#1 then .byte else .word

end Sys2Proof.Machine
end

