-- ==== Sys2Proof/Config.lean ====
section
/-! DEFINITION. The OPEN parameters of 00_scope.md R6, and the bytes that `buf` holds before the host loads it: fixed for
one block, and given no value by the spec. Each is an opaque constant, so every claim about the model holds for all of
their values. -/

namespace Sys2Proof

/-- `L_MAX` (R6): the largest input length that the buffer holds. -/
opaque Config.lMax : Nat

/-- By how many bits the cursor is wider than it has to be; any amount is allowed. -/
opaque Config.curWSlack : Nat

/-- `CUR_W` (R6): the width of the cursor in bits. The least width whose values cover 0..L_MAX, plus any slack: these
are exactly the widths with `2^CUR_W > L_MAX`. -/
def Config.curW : Nat := Config.lMax.size + Config.curWSlack

/-- What an offset of `buf` holds that the host has not written: any byte (10_state.md R21, 93_implementation_defined.md
item 1). A free value, one for each offset (assumption log 3). -/
opaque Config.unloadedByte : Nat → Byte

/-- The characters of an OPEN text; R6 says that such a text contains no LF, so its line feeds, if any, are dropped. -/
def Config.lineText (s : String) : Text := s.toList.filter (· != '\n')

/-- The unconstrained text behind `DIRECTIVE`. -/
opaque Config.directiveRaw : String

/-- The unconstrained texts behind `PLACEHOLDER_TEXT`, used for the four placeholder kinds only. -/
opaque Config.placeholderRaw : Kind → String

/-- The unconstrained texts behind `DIAG_COMMENT`. -/
opaque Config.diagCommentRaw : Machine.Record → String

/-- `DIRECTIVE` (R6, 48_emitter.md R250). -/
def Config.directive : Text := Config.lineText Config.directiveRaw

/-- `PLACEHOLDER_TEXT(k)` (R6, 48_emitter.md R254). -/
def Config.placeholderText (k : Kind) : Text := Config.lineText (Config.placeholderRaw k)

/-- `DIAG_COMMENT(rec)` (R6, 48_emitter.md R255). -/
def Config.diagComment (r : Machine.Record) : Text := Config.lineText (Config.diagCommentRaw r)

end Sys2Proof
end

