-- ==== Sys2Proof/Machine/State.lean ====
section
/-! DEFINITION. The state of the block (10_state.md R20: these elements, and nothing else), its value after reset, and
the reasons for which a step or a host action has no next state. -/

namespace Sys2Proof.Machine

/-- The status register `st` (R24); its 2-bit code is `Status.code` in Flags.lean. -/
inductive Status where
  | idle
  | run
  | done
  | fault
  deriving DecidableEq, Repr

/-- The register `fault_kind` (R25); its 2-bit code is `FaultKind.code` in Flags.lean. The code 11 is reserved and never
written, so it has no constructor. -/
inductive FaultKind where
  | none
  | truncated
  | unknownOpcode
  deriving DecidableEq, Repr

/-- What the host has written to the input buffer: offset and byte pairs, offsets strictly rising (`Memory.wf`). An
unlisted offset holds a byte too, of which the spec says nothing (`Memory.read` in Ops.lean). -/
abbrev Memory := List Host.Cell

/-- The state elements of R20. -/
structure State where
  /-- `buf` (R21): the bytes that the host has written. -/
  buf : Memory
  /-- `L` (R22): the number of valid bytes. -/
  inputLen : Nat
  /-- `cur` (R23): the cursor, which is the block's program counter. -/
  cur : Nat
  /-- `st` (R24). -/
  st : Status
  /-- `fault_kind` (R25). -/
  faultKind : FaultKind
  /-- `fault_pos` (R26). -/
  faultPos : Nat
  /-- `cfg_unknown_abort` (R27). -/
  cfgUnknownAbort : Bool
  /-- `cfg_verbose` (R28). -/
  cfgVerbose : Bool
  /-- `out` (R29): the records emitted so far, the oldest first. -/
  out : List Record
  deriving DecidableEq, Repr

/-- The block after power-on and reset (70_reset_and_hazards.md R300, 10_state.md R20). The spec gives `buf` and `L` no
reset value: DESIGN CHOICE, L = 0 (assumption log 2, unsafe) and
no byte of `buf` written, so that each offset holds a free value (assumption log 3, safe). -/
def State.reset : State where
  buf := []
  inputLen := 0
  cur := 0
  st := .idle
  faultKind := .none
  faultPos := 0
  cfgUnknownAbort := false
  cfgVerbose := false
  out := []

/-- Why a step has no next state. The architected faults TRUNCATED and UNKNOWN_OPCODE are not among these: their
entry is a next state (60_exceptions.md R273). -/
inductive Fault where
  /-- Raised by `step` while `st` is not RUN: no decoder step is enabled (40_decode_cycle.md R100). Safe: the block does
  not step there either. -/
  | noStepEnabled (st : Status)
  /-- Raised by `step` in RUN with `cur > L`, where R23 says the cursor never is and no read is defined (R9). Safe: no
  behaviour is claimed. -/
  | cursorBeyondInput
  deriving DecidableEq, Repr

/-- Why a step or a host action is given no meaning. -/
inductive Refusal where
  /-- Raised by `exec` for an instruction that has no meaning yet; no arm is left that raises it. Safe. -/
  | notModelled (mnemonic : String)
  /-- Raised by `hostAct` on a host write of `buf`, `L` or a configuration bit during RUN: the spec gives the run no
  meaning from there on (20_memory.md R57). Safe. -/
  | hostWriteDuringRun
  /-- Raised by `hostAct` on a write beyond the buffer's capacity `L_MAX` (70_reset_and_hazards.md R301). Safe. -/
  | beyondCapacity
  deriving DecidableEq, Repr

/-- The three outcomes of the host's interface at this machine's types. -/
abbrev Outcome := Host.Outcome State Fault Refusal

end Sys2Proof.Machine
end

