-- ==== Sys2Proof/Machine/Ops.lean ====
section
/-! DEFINITION. The named operations on the state: reads and writes of the input buffer, the primitives of 00_scope.md
R9 (`Emit`, `cur <- v`, `st <- s`, `Need`, `raise`), the commit of a record (R104), and fault entry (R273), from which
there is no return but the host's reset (R276). -/

namespace Sys2Proof.Machine

/-! ### The input buffer -/

/-- The form in which a buffer is held: offsets strictly rising. -/
abbrev Memory.wf (m : Memory) : Prop := m.Pairwise fun x y => x.1 < y.1

/-- The byte that the host has written at an offset, if it has written one. -/
def Memory.lookup : Memory → Nat → Option Byte
  | [], _ => none
  | (x, b) :: m, a => if a = x then some b else Memory.lookup m a

/-- `buf[a]` (R9): every offset holds a byte (10_state.md R21), the one that the host has written or else the offset's free
value. -/
def Memory.read (m : Memory) (a : Nat) : Byte := (m.lookup a).getD (Config.unloadedByte a)

/-- The host's write of one byte (20_memory.md R57). -/
def Memory.write : Memory → Nat → Byte → Memory
  | [], a, v => [(a, v)]
  | (x, b) :: m, a, v =>
    if a < x then (a, v) :: (x, b) :: m
    else if a = x then (a, v) :: m
    else (x, b) :: Memory.write m a v

/-- Writes bytes at rising offsets from `a`. -/
def Memory.writeBytes : Memory → Nat → List Byte → Memory
  | m, _, [] => m
  | m, a, v :: vs => Memory.writeBytes (m.write a v) (a + 1) vs

/-- The bytes at offsets `a..a+n-1` in rising order (20_memory.md R56). -/
def Memory.readRun (m : Memory) (a : Nat) : Nat → List Byte
  | 0 => []
  | n + 1 => m.read a :: Memory.readRun m (a + 1) n

/-! ### The primitives of R9 -/

/-- `Emit(rec)`: appends a record (10_state.md R29). -/
def State.emit (s : State) (r : Record) : State := { s with out := s.out ++ [r] }

/-- `cur <- v`. -/
def State.setCur (s : State) (v : Nat) : State := { s with cur := v }

/-- `st <- s`. -/
def State.setSt (s : State) (v : Status) : State := { s with st := v }

/-! ### Ways in which a step ends -/

/-- The commit (R104): `Emit(rec)`, then the cursor moves past the instruction. -/
def State.commit (s : State) (r : Record) : State := (s.emit r).setCur (s.cur + r.len)

/-- The skip of an unknown opcode (R200): one byte is consumed, and nothing is emitted. -/
def State.skip (s : State) : State := s.setCur (s.cur + 1)

/-- Normal termination (R101). -/
def State.finish (s : State) : State := s.setSt .done

/-- Fault entry, `raise F(p)` with `p` the cursor (R273): the status, the kind and the position are written; the cursor
stays at the opcode byte and nothing is emitted. -/
def State.raise (s : State) (k : FaultKind) : State :=
  { s with st := .fault, faultKind := k, faultPos := s.cur }

/-- Completes an instruction whose record is `r`: all of its bytes must lie below `L`, or the step raises TRUNCATED
(R103, R271); then it commits. All truncation points of one instruction give the same fault (R275), so one check
stands for its `Need` checks. -/
def complete (r : Record) (s : State) : Outcome :=
  if s.cur + r.len ≤ s.inputLen then .next (s.commit r) else .next (s.raise .truncated)

end Sys2Proof.Machine
end

