-- ==== Sys2Proof/Machine/MovImmReg.lean ====
section
/-! DEFINITION. MOV immediate to register, opcodes B0-BF (43_mov_imm_reg.md). -/

namespace Sys2Proof.Machine

/-- The record of `DecodeImmReg` (R160). The destination key is the opcode's low nibble (R161). -/
def recordImmReg (op : Byte) (imm : Half) (p : Nat) : Record :=
  { kind := .movImmReg
    pos := p
    len := 1 + immLen (opRegW op)
    opcode := op
    w := some (opRegW op)
    d := none
    mode := none
    reg := some (opReg op)
    rm := none
    disp := none
    imm := some imm
    dst := some (.reg (op.extractLsb' 0 4))
    src := some (.imm imm (widthOf (opRegW op))) }

/-- B0-BF: `mov r, imm` (R160). -/
def execMovRImm (w : BitVec 1) (reg : BitVec 3) (imm : Half) (s : State) : Outcome :=
  complete (recordImmReg (0b1011#4 ++ w ++ reg) imm s.cur) s

end Sys2Proof.Machine
end

