-- ==== Sys2Proof/Machine/MovImmRm.lean ====
section
/-! DEFINITION. MOV immediate to register/memory, opcodes C6 and C7 (42_mov_imm_rm.md). -/

namespace Sys2Proof.Machine

/-- The record of `DecodeImmRm` (R140). A memory destination carries the width keyword (R145). The ModRM bits 5:3 are
no part of it (R144), and its length counts the addressing read and the data read apart (R143, R304). -/
def recordImmRm (op : Byte) (m : RmForm) (imm : Half) (p : Nat) : Record :=
  { kind := .movImmRm
    pos := p
    len := 2 + dispLen m.mode m.rm + immLen (opW op)
    opcode := op
    w := some (opW op)
    d := none
    mode := some m.mode
    reg := none
    rm := some m.rm
    disp := rmDisp m
    imm := some imm
    dst := some (rmOperand (opW op) (some (widthOf (opW op))) m)
    src := some (.imm imm (widthOf (opW op))) }

/-- C6: `mov r/m8, imm8` (R141). The don't-care field has no effect (R144). -/
def execMovRm8Imm8 (dst : RmForm) (imm : Byte) (s : State) : Outcome :=
  complete (recordImmRm 0xC6#8 dst (zext16 imm) s.cur) s

/-- C7: `mov r/m16, imm16` (R142). The don't-care field has no effect (R144). -/
def execMovRm16Imm16 (dst : RmForm) (imm : Half) (s : State) : Outcome :=
  complete (recordImmRm 0xC7#8 dst imm s.cur) s

end Sys2Proof.Machine
end

