-- ==== Sys2Proof/Machine/MovRmReg.lean ====
section
/-! DEFINITION. MOV register/memory to/from register, opcodes 88-8B (41_mov_rm_reg.md). -/

namespace Sys2Proof.Machine

/-- The record of `DecodeRmReg` (R120). A memory operand carries no width keyword (R125). -/
def recordRmReg (op : Byte) (reg : BitVec 3) (m : RmForm) (p : Nat) : Record :=
  let regop := Operand.reg (regKey (opW op) reg)
  let rmop := rmOperand (opW op) none m
  { kind := .movRmReg
    pos := p
    len := 2 + dispLen m.mode m.rm
    opcode := op
    w := some (opW op)
    d := some (opD op)
    mode := some m.mode
    reg := some reg
    rm := some m.rm
    disp := rmDisp m
    imm := none
    dst := some (if opD op = 1#1 then regop else rmop)
    src := some (if opD op = 1#1 then rmop else regop) }

/-- 88: `mov r/m8, r8` (R121). -/
def execMovRm8R8 (dst : RmForm) (src : BitVec 3) (s : State) : Outcome :=
  complete (recordRmReg 0x88#8 src dst s.cur) s

/-- 89: `mov r/m16, r16` (R122). -/
def execMovRm16R16 (dst : RmForm) (src : BitVec 3) (s : State) : Outcome :=
  complete (recordRmReg 0x89#8 src dst s.cur) s

/-- 8A: `mov r8, r/m8` (R123). -/
def execMovR8Rm8 (dst : BitVec 3) (src : RmForm) (s : State) : Outcome :=
  complete (recordRmReg 0x8A#8 dst src s.cur) s

/-- 8B: `mov r16, r/m16` (R124). -/
def execMovR16Rm16 (dst : BitVec 3) (src : RmForm) (s : State) : Outcome :=
  complete (recordRmReg 0x8B#8 dst src s.cur) s

end Sys2Proof.Machine
end

