-- ==== Sys2Proof/Machine/Placeholder.lean ====
section
/-! DEFINITION. The four recognised forms that are recorded as placeholders (44_placeholder_forms.md): one byte is
consumed, no operand is decoded, and the form cannot be truncated. -/

namespace Sys2Proof.Machine

/-- `Placeholder(k, op, p)` (R180). -/
def recordPlaceholder (k : Kind) (op : Byte) (p : Nat) : Record :=
  { kind := k, pos := p, len := 1, opcode := op, w := none, d := none, mode := none, reg := none, rm := none,
    disp := none, imm := none, dst := none, src := none }

/-- A0, A1: memory → accumulator (R181). -/
def execPhMemToAcc (w : BitVec 1) (s : State) : Outcome :=
  .next (s.commit (recordPlaceholder .phMemToAcc (0b1010000#7 ++ w) s.cur))

/-- A2, A3: accumulator → memory (R182). -/
def execPhAccToMem (w : BitVec 1) (s : State) : Outcome :=
  .next (s.commit (recordPlaceholder .phAccToMem (0b1010001#7 ++ w) s.cur))

/-- 8E: register/memory → segment register (R183). -/
def execPhRmToSreg (s : State) : Outcome :=
  .next (s.commit (recordPlaceholder .phRmToSreg 0x8E#8 s.cur))

/-- 8C: segment register → register/memory (R184). -/
def execPhSregToRm (s : State) : Outcome :=
  .next (s.commit (recordPlaceholder .phSregToRm 0x8C#8 s.cur))

end Sys2Proof.Machine
end

