-- ==== Sys2Proof/Machine/Unknown.lean ====
section
/-! DEFINITION. Unknown opcodes (45_unknown_opcode.md). -/

namespace Sys2Proof.Machine

/-- `Unknown(p)`: with `cfg_unknown_abort = 0` one byte is skipped (R200); with 1 the step raises UNKNOWN_OPCODE and
consumes nothing (R201). The byte itself plays no part. -/
def execUnknownOpcode (s : State) : Outcome :=
  if s.cfgUnknownAbort then .next (s.raise .unknownOpcode) else .next s.skip

end Sys2Proof.Machine
end

