-- ==== Sys2Proof/Machine/Dispatch.lean ====
section
/-! DEFINITION. The dispatch from an instruction to its meaning (40_decode_cycle.md R105), one arm per constructor. -/

namespace Sys2Proof.Machine

def exec (i : Instr) (s : State) : Host.Outcome State Fault Refusal :=
  match i with
  -- 41_mov_rm_reg.md
  | .movRm8R8 dst src => Sys2Proof.Machine.execMovRm8R8 dst src s
  | .movRm16R16 dst src => Sys2Proof.Machine.execMovRm16R16 dst src s
  | .movR8Rm8 dst src => Sys2Proof.Machine.execMovR8Rm8 dst src s
  | .movR16Rm16 dst src => Sys2Proof.Machine.execMovR16Rm16 dst src s
  -- 42_mov_imm_rm.md
  | .movRm8Imm8 _ dst imm => Sys2Proof.Machine.execMovRm8Imm8 dst imm s
  | .movRm16Imm16 _ dst imm => Sys2Proof.Machine.execMovRm16Imm16 dst imm s
  -- 43_mov_imm_reg.md
  | .movRImm w reg imm => Sys2Proof.Machine.execMovRImm w reg imm s
  -- 44_placeholder_forms.md
  | .phMemToAcc w => Sys2Proof.Machine.execPhMemToAcc w s
  | .phAccToMem w => Sys2Proof.Machine.execPhAccToMem w s
  | .phRmToSreg => Sys2Proof.Machine.execPhRmToSreg s
  | .phSregToRm => Sys2Proof.Machine.execPhSregToRm s
  -- 45_unknown_opcode.md
  | .unknownOpcode _ => Sys2Proof.Machine.execUnknownOpcode s

end Sys2Proof.Machine
end

