-- ==== Sys2Proof/Machine/Fetch.lean ====
section
/-! DEFINITION. What the decoder finds at the cursor: the bytes `buf[cur..]` below `L`, at most as many as the longest
instruction has (30_encoding.md R80), given to the decoder (40_decode_cycle.md R102, R103). -/

namespace Sys2Proof.Machine

/-- What stands at the cursor. -/
inductive Fetched where
  /-- A whole instruction. -/
  | instr (i : Instr)
  /-- The input ends inside a recognised instruction (60_exceptions.md R271). -/
  | truncated
  deriving DecidableEq, Repr

/-- How many bytes of the input the decode of one instruction may read. -/
def State.windowLen (s : State) : Nat := min maxInstrLen (s.inputLen - s.cur)

/-- The bytes from the cursor on that the decode may read. -/
def State.window (s : State) : List Byte := s.buf.readRun s.cur s.windowLen

/-- Reads the instruction at the cursor. Where the window ends before the instruction does, it is `L` that ends it: the
window is as long as the longest instruction or reaches `L`. -/
def State.fetch (s : State) : Fetched :=
  match decode s.window with
  | .ok (i, _) => .instr i
  | .error _ => .truncated

end Sys2Proof.Machine
end

