-- ==== Sys2Proof/Machine/Step.lean ====
section
/-! DEFINITION. The one step of the decoder (40_decode_cycle.md R100-R105), and the placing of one instruction word
where the next step reads it. -/

namespace Sys2Proof.Machine

/-- `Step()` (R105): enabled only in RUN (R100); DONE at the end of the input (R101); otherwise one instruction is
fetched and run, or the input ends inside it and the step raises TRUNCATED (R103, R273). -/
def step (s : State) : Host.Outcome State Fault Refusal :=
  match s.st with
  | .run =>
    if s.cur = s.inputLen then .next s.finish
    else if s.inputLen < s.cur then .fault .cursorBeyondInput
    else
      match s.fetch with
      | .instr i => exec i s
      | .truncated => .next (s.raise .truncated)
  | .idle => .fault (.noStepEnabled .idle)
  | .done => .fault (.noStepEnabled .done)
  | .fault => .fault (.noStepEnabled .fault)

/-- The state whose next step runs the instruction of a table word: the word's bytes stand at the cursor, the input
reaches past them, and the block is started. It stands for the host's load and start (assumption log 4). -/
def State.withFetchWord (s : State) (nbits w : Nat) : State :=
  { s with
    buf := s.buf.writeBytes s.cur (tableBytes nbits w)
    inputLen := max s.inputLen (s.cur + maxInstrLen)
    st := .run }

end Sys2Proof.Machine
end

