-- ==== Sys2Proof/Machine/RegisterNamer.lean ====
section
/-! DEFINITION. The register-name LUT (47_register_namer.md): read-only, total over the 16 keys, no storage. -/

namespace Sys2Proof.Machine

/-- The 16 names in key order (R241). -/
def regNames : Vector String 16 :=
  #v["al", "cl", "dl", "bl", "ah", "ch", "dh", "bh", "ax", "cx", "dx", "bx", "sp", "bp", "si", "di"]

/-- `RegName(key)` (R241-R243). -/
def regName (key : BitVec 4) : Text := (regNames[key.toFin]).toList

end Sys2Proof.Machine
end

