-- ==== Sys2Proof/Machine/Resolver.lean ====
section
/-! DEFINITION. The addressing-mode resolver's text: the rendering of operand descriptors (46_addressing_resolver.md).
No effective address is computed (R223). -/

namespace Sys2Proof.Machine

/-- `base(rm)` (R213). The entries 001, 010, 011, 101 and 111 are the spec's default for `BASE_EXPR` (decision D24;
assumption log 8). The entry 110 is used with a displacement only; without one it is the direct address. -/
def baseExprs : Vector String 8 :=
  #v["bx + si", "bx + di", "bp + si", "bp + di", "si", "di", "bp", "bx"]

/-- The base/index expression of a selector (R213). -/
def baseExpr (rm : BitVec 3) : Text := (baseExprs[rm.toFin]).toList

/-- `dec(n)` (00_scope.md R10): decimal, no leading zeros. -/
def dec (n : Nat) : Text := Nat.toDigits 10 n

/-- The suffix of a displacement (R217): its sign and its absolute value, the mathematical one for -32768 (R221). -/
def dispSuffix (d : Half) : Text :=
  if d.toInt < 0 then " - ".toList ++ dec d.toInt.natAbs else " + ".toList ++ dec d.toInt.natAbs

/-- `MemText(ea)` (R215-R218). -/
def memText : EA → Text
  | .direct a => "[".toList ++ dec a.toNat ++ "]".toList
  | .based rm => "[".toList ++ baseExpr rm ++ "]".toList
  | .basedDisp rm d =>
    if rm = 0b110#3 ∧ d = 0#16 then "[bp]".toList
    else "[".toList ++ baseExpr rm ++ dispSuffix d ++ "]".toList

/-- The width keyword before a memory operand (R219). -/
def keywordText : Option Width → Text
  | none => []
  | some .byte => "byte ".toList
  | some .word => "word ".toList

/-- `OpText` (48_emitter.md R253; R219, R220, R222). -/
def opText : Operand → Text
  | .reg key => regName key
  | .mem ea kw => keywordText kw ++ memText ea
  | .imm v _ => dec v.toNat

end Sys2Proof.Machine
end

