-- ==== Sys2Proof/Machine/Emitter.lean ====
section
/-! DEFINITION. The emitter (48_emitter.md): the output text, a pure function of the records and the verbosity bit. -/

namespace Sys2Proof.Machine

/-- LF (00_scope.md R10). -/
def lf : Char := '\n'

/-- The text of an operand field. The records of the MOV kinds have both operands (10_state.md R30); a record without
one is never emitted, and its operand renders as nothing (assumption log 16). -/
def operandText (o : Option Operand) : Text := (o.map opText).getD []

/-- `Line(rec)` (R252, R254). -/
def line (r : Record) : Text :=
  match r.kind with
  | .movRmReg => "mov ".toList ++ operandText r.dst ++ ", ".toList ++ operandText r.src
  | .movImmRm => "mov ".toList ++ operandText r.dst ++ ", ".toList ++ operandText r.src
  | .movImmReg => "mov ".toList ++ operandText r.dst ++ ", ".toList ++ operandText r.src
  | .phMemToAcc => Config.placeholderText .phMemToAcc
  | .phAccToMem => Config.placeholderText .phAccToMem
  | .phRmToSreg => Config.placeholderText .phRmToSreg
  | .phSregToRm => Config.placeholderText .phSregToRm

/-- The record's line with its diagnostic comment, if the block is verbose (R255). -/
def recordLine (verbose : Bool) (r : Record) : Text :=
  line r ++ (if verbose then Config.diagComment r else [])

/-- What one record adds to the text: a blank line, then its line (R251, R256). -/
def recordText (verbose : Bool) (r : Record) : Text := [lf] ++ recordLine verbose r ++ [lf]

/-- `Text(out)` (R257). -/
def textOf (verbose : Bool) (out : List Record) : Text :=
  Config.directive ++ [lf] ++ out.flatMap (recordText verbose)

/-- The text that the block has produced: none before start (R257, 60_exceptions.md R284). -/
def State.text (s : State) : Option Text :=
  match s.st with
  | .idle => none
  | .run => some (textOf s.cfgVerbose s.out)
  | .done => some (textOf s.cfgVerbose s.out)
  | .fault => some (textOf s.cfgVerbose s.out)

end Sys2Proof.Machine
end

