-- ==== Sys2Proof/Machine/Flags.lean ====
section
/-! DEFINITION. The codes of the status-like state. The block has no FLAGS and no condition codes (10_state.md R35):
its only status-like state is `st` and `fault_kind`, which the host reads as 2-bit codes (R24, R25); a record's kind is
a 3-bit code (R32). No instruction computes a flag. -/

namespace Sys2Proof.Machine

/-- The 2-bit code of `st` (R24). -/
def Status.code : Status → BitVec 2
  | .idle => 0b00#2
  | .run => 0b01#2
  | .done => 0b10#2
  | .fault => 0b11#2

/-- The 2-bit code of `fault_kind` (R25). -/
def FaultKind.code : FaultKind → BitVec 2
  | .none => 0b00#2
  | .truncated => 0b01#2
  | .unknownOpcode => 0b10#2

/-- The 3-bit code of a record's kind (R32). -/
def kindCode : Kind → BitVec 3
  | .movRmReg => 0#3
  | .movImmRm => 1#3
  | .movImmReg => 2#3
  | .phMemToAcc => 3#3
  | .phAccToMem => 4#3
  | .phRmToSreg => 5#3
  | .phSregToRm => 6#3

end Sys2Proof.Machine
end

