-- ==== Sys2Proof/Machine/HostInterface.lean ====
section
/-! DEFINITION. What the host can do to the block between two decoder steps, and what it can read
(00_scope.md R5, 10_state.md R20, 20_memory.md R57, 70_reset_and_hazards.md R300-R303). -/

namespace Sys2Proof.Machine

/-- The host's actions that change the block. Reading it changes nothing (`observe`). -/
inductive HostAction where
  | reset
  | start
  /-- A write of one byte of `buf`. -/
  | writeBuf (offset : Nat) (value : Byte)
  /-- A write of `L`. -/
  | writeLen (n : Nat)
  | writeUnknownAbort (v : Bool)
  | writeVerbose (v : Bool)
  deriving DecidableEq, Repr

/-- Reset (R300): every element takes its reset value but `buf` and `L`, which do not change. -/
def State.hostReset (s : State) : State :=
  { s with
    st := .idle, cur := 0, faultKind := .none, faultPos := 0, out := []
    cfgUnknownAbort := false, cfgVerbose := false }

/-- Start, taken in IDLE (R301). -/
def State.started (s : State) : State :=
  { s with st := .run, cur := 0, faultKind := .none, faultPos := 0 }

/-- A host write of `buf`, `L` or a configuration bit (R57): free while `st` is not RUN; during RUN the run has no
meaning from there on. `fits` says that the write stays within the buffer's `L_MAX` bytes (R301); one that does not has
no meaning either. -/
def hostWrite (fits : Bool) (s t : State) : Outcome :=
  if s.st = .run then .refused .hostWriteDuringRun
  else if fits then .next t
  else .refused .beyondCapacity

/-- What a host action does. -/
def hostAct (a : HostAction) (s : State) : Outcome :=
  match a with
  | .reset => .next s.hostReset
  | .start => if s.st = .idle then .next s.started else .next s
  | .writeBuf i v => hostWrite (i < Config.lMax) s { s with buf := s.buf.write i v }
  | .writeLen n => hostWrite (n ≤ Config.lMax) s { s with inputLen := n }
  | .writeUnknownAbort v => hostWrite true s { s with cfgUnknownAbort := v }
  | .writeVerbose v => hostWrite true s { s with cfgVerbose := v }

/-- The actions one after another; the first that has no meaning ends them. -/
def hostActs : List HostAction → State → Outcome
  | [], s => .next s
  | a :: as, s =>
    match hostAct a s with
    | .next t => hostActs as t
    | .fault r => .fault r
    | .refused r => .refused r

/-- The writes of an input's bytes from offset `a` on. -/
def writeInput : Nat → List Byte → List HostAction
  | _, [] => []
  | a, b :: bs => .writeBuf a b :: writeInput (a + 1) bs

/-- The boot sequence (R301): reset, the buffer and `L`, the configuration, start. -/
def bootActions (input : List Byte) (unknownAbort verbose : Bool) : List HostAction :=
  [.reset] ++ writeInput 0 input ++ [.writeLen input.length, .writeUnknownAbort unknownAbort, .writeVerbose verbose,
    .start]

/-- What the host reads: the status and fault registers as codes, the cursor, the records and the text (R307). -/
structure Observation where
  st : BitVec 2
  faultKind : BitVec 2
  faultPos : Nat
  cur : Nat
  out : List Record
  text : Option Text
  deriving DecidableEq, Repr

/-- The observation of a state (R307). -/
def observe (s : State) : Observation :=
  { st := s.st.code, faultKind := s.faultKind.code, faultPos := s.faultPos, cur := s.cur, out := s.out
    text := s.text }

end Sys2Proof.Machine
end

