-- ==== Sys2Proof/WellFormed.lean ====
section
/-! DEFINITION. Which instruction terms the encoding admits: one check per constraint that the types of Syntax.lean
leave open. The check of an unknown opcode is written from the listing of 30_encoding.md R74, so that it stands
beside the classifier of Decode.lean (written from R73) as a second reading. -/

namespace Sys2Proof

/-- `mod = 00` with `rm = 110` is the direct address, never a base register (R75, R214). -/
def RmForm.wellFormed : RmForm → Bool
  | .reg _ => true
  | .direct _ => true
  | .based rm => rm != 0b110#3
  | .based8 _ _ => true
  | .based16 _ _ => true

/-- The byte ranges that R74 lists as UNKNOWN. -/
def unknownRanges : List (Nat × Nat) :=
  [(0x00, 0x87), (0x8D, 0x8D), (0x8F, 0x9F), (0xA4, 0xAF), (0xC0, 0xC5), (0xC8, 0xFF)]

/-- R74: the byte lies in one of the UNKNOWN ranges. -/
def isUnknownByte (op : Byte) : Bool :=
  unknownRanges.any fun r => r.1 ≤ op.toNat && op.toNat ≤ r.2

/-- The instruction is one that some byte sequence encodes. -/
def Instr.wellFormed : Instr → Bool
  | .movRm8R8 dst _ => dst.wellFormed
  | .movRm16R16 dst _ => dst.wellFormed
  | .movR8Rm8 _ src => src.wellFormed
  | .movR16Rm16 _ src => src.wellFormed
  | .movRm8Imm8 _ dst _ => dst.wellFormed
  | .movRm16Imm16 _ dst _ => dst.wellFormed
  | .movRImm w _ imm => w == 1#1 || decide (imm.toNat < 256)
  | .phMemToAcc _ => true
  | .phAccToMem _ => true
  | .phRmToSreg => true
  | .phSregToRm => true
  | .unknownOpcode op => isUnknownByte op

end Sys2Proof
end

