-- ==== Sys2Proof/Safety.lean ====
section
/-! DEFINITION. The terms in which claims speak of runs: a run of the decoder, runs mixed with host actions, which bytes
stand at the cursor, and the invariant of the block. -/

namespace Sys2Proof.Machine

/-- A run of at most `k` decoder steps; it ends at the first state that is not RUN (70_reset_and_hazards.md R307). -/
def decodeRun : Nat → State → Outcome
  | 0, s => .next s
  | k + 1, s =>
    if s.st = .run then
      match step s with
      | .next t => decodeRun k t
      | .fault r => .fault r
      | .refused r => .refused r
    else .next s

/-- The step at this state skips an unknown opcode (45_unknown_opcode.md R200). -/
def State.skips (s : State) : Bool :=
  s.st == .run && decide (s.cur < s.inputLen) && !s.cfgUnknownAbort &&
    match s.fetch with
    | .instr (.unknownOpcode _) => true
    | _ => false

/-- How many bytes the run skips. -/
def skippedBytes : Nat → State → Nat
  | 0, _ => 0
  | k + 1, s =>
    (if s.skips then 1 else 0) +
      match step s with
      | .next t => skippedBytes k t
      | .fault _ => 0
      | .refused _ => 0

/-- One event: a decoder step or a host action between two of them (R303). -/
inductive Event where
  | decoderStep
  | host (a : HostAction)
  deriving DecidableEq, Repr

/-- What one event does. -/
def eventStep (e : Event) (s : State) : Outcome :=
  match e with
  | .decoderStep => step s
  | .host a => hostAct a s

/-- The events one after another; the first that has no next state ends them. -/
def runEvents : List Event → State → Outcome
  | [], s => .next s
  | e :: es, s =>
    match eventStep e s with
    | .next t => runEvents es t
    | .fault r => .fault r
    | .refused r => .refused r

/-- The bytes `bs` stand at the cursor, inside the input. -/
def State.bytesAtCursor (s : State) (bs : List Byte) : Prop :=
  s.cur + bs.length ≤ s.inputLen ∧ ∀ k, (h : k < bs.length) → s.buf.read (s.cur + k) = bs[k]

/-- The record of an instruction at offset `p`; an unknown opcode has none (45_unknown_opcode.md R200). -/
def recordOf (i : Instr) (p : Nat) : Option Record :=
  match i with
  | .movRm8R8 m reg => some (recordRmReg 0x88#8 reg m p)
  | .movRm16R16 m reg => some (recordRmReg 0x89#8 reg m p)
  | .movR8Rm8 reg m => some (recordRmReg 0x8A#8 reg m p)
  | .movR16Rm16 reg m => some (recordRmReg 0x8B#8 reg m p)
  | .movRm8Imm8 _ m imm => some (recordImmRm 0xC6#8 m (zext16 imm) p)
  | .movRm16Imm16 _ m imm => some (recordImmRm 0xC7#8 m imm p)
  | .movRImm w reg imm => some (recordImmReg (0b1011#4 ++ w ++ reg) imm p)
  | .phMemToAcc w => some (recordPlaceholder .phMemToAcc (0b1010000#7 ++ w) p)
  | .phAccToMem w => some (recordPlaceholder .phAccToMem (0b1010001#7 ++ w) p)
  | .phRmToSreg => some (recordPlaceholder .phRmToSreg 0x8E#8 p)
  | .phSregToRm => some (recordPlaceholder .phSregToRm 0x8C#8 p)
  | .unknownOpcode _ => none

/-- The record at another offset: the same fields but for `pos`. -/
def Record.at (r : Record) (p : Nat) : Record := { r with pos := p }

/-- How a sweep over a byte list ends, and the records it gives. -/
structure SweepResult where
  out : List Record
  st : Status
  faultKind : FaultKind
  cur : Nat
  deriving DecidableEq, Repr

/-- The linear sweep that a run amounts to, written over the bytes of the input alone, with no cursor into a buffer, no
status register and no fault entry: at most `fuel` instructions, from offset `p`. -/
def sweep (abort : Bool) : Nat → Nat → List Byte → SweepResult
  | 0, p, _ => ⟨[], .run, .none, p⟩
  | _ + 1, p, [] => ⟨[], .done, .none, p⟩
  | fuel + 1, p, b :: bs =>
    match decode (b :: bs) with
    | .error _ => ⟨[], .fault, .truncated, p⟩
    | .ok (i, rest) =>
      match recordOf i p with
      | some r =>
        let later := sweep abort fuel (p + i.length) rest
        { later with out := r :: later.out }
      | none => if abort then ⟨[], .fault, .unknownOpcode, p⟩ else sweep abort fuel (p + 1) rest

/-- A record of a MOV kind: both operands are there (10_state.md R30). -/
def isMovKind : Kind → Bool
  | .movRmReg => true
  | .movImmRm => true
  | .movImmReg => true
  | .phMemToAcc => false
  | .phAccToMem => false
  | .phRmToSreg => false
  | .phSregToRm => false

/-- The record reads a displacement or an address (R30): its mode and r/m selector say so (30_encoding.md R75). -/
def Record.readsDisp (r : Record) : Bool :=
  match r.mode, r.rm with
  | some mode, some rm => dispLen mode rm != 0
  | _, _ => false

/-- Which fields are present: the table of 10_state.md R30. -/
def Record.fieldsPresent (r : Record) : Prop :=
  (1 ≤ r.len ∧ r.len ≤ 6) ∧
  (r.w.isSome = isMovKind r.kind) ∧
  (r.d.isSome = (r.kind == .movRmReg)) ∧
  (r.mode.isSome = (r.kind == .movRmReg || r.kind == .movImmRm)) ∧
  (r.reg.isSome = (r.kind == .movRmReg || r.kind == .movImmReg)) ∧
  (r.rm.isSome = (r.kind == .movRmReg || r.kind == .movImmRm)) ∧
  (r.disp.isSome = r.readsDisp) ∧
  (r.imm.isSome = (r.kind == .movImmRm || r.kind == .movImmReg)) ∧
  (r.dst.isSome = isMovKind r.kind) ∧
  (r.src.isSome = isMovKind r.kind)

/-- The operand is a memory operand with a width keyword. -/
def Operand.keyword : Operand → Option Width
  | .reg _ => none
  | .mem _ kw => kw
  | .imm _ _ => none

/-- The records lie in the input one after another, all before `limit` (10_state.md R36). -/
def Record.inOrder (out : List Record) (limit : Nat) : Prop :=
  out.Pairwise (fun r₁ r₂ => r₁.pos + r₁.len ≤ r₂.pos) ∧ ∀ r ∈ out, r.pos + r.len ≤ limit

/-- The input fits the buffer and every position fits it too (10_state.md R20-R22, 00_scope.md R6). Apart from `State.Inv`
because `L_MAX` has no known value. -/
def State.fits (s : State) : Prop :=
  s.inputLen ≤ Config.lMax ∧ s.cur ≤ Config.lMax ∧ s.faultPos ≤ Config.lMax

/-- The invariant of the block: what holds after reset and after every event. -/
structure State.Inv (s : State) : Prop where
  /-- The buffer keeps its canonical form. -/
  bufWf : s.buf.wf
  /-- The cursor never exceeds L while the decoder may use it (R23). -/
  curInInput : s.st = .run → s.cur ≤ s.inputLen
  /-- IDLE is the state that reset leaves, but for what the host writes there (R300). -/
  idleClean : s.st = .idle → s.cur = 0 ∧ s.out = []
  /-- The fault registers tell of a fault only in FAULT (R25, R26). -/
  faultRegs : s.st ≠ .fault → s.faultKind = .none ∧ s.faultPos = 0
  /-- In FAULT they tell of one, and the cursor is at the faulting opcode (60_exceptions.md R273). -/
  faultEntry : s.st = .fault → s.faultKind ≠ .none ∧ s.faultPos = s.cur
  /-- Every record has the fields its kind has (R30). -/
  recordFields : ∀ r ∈ s.out, r.fieldsPresent
  /-- The records are in cursor order and do not overlap (R29, R36). -/
  recordOrder : Record.inOrder s.out s.cur

end Sys2Proof.Machine
end

