-- ==== Sys2Proof/Certificates/Slice0/Obligations.lean ====
section
/-! DEFINITION. The statements about the model, taken from the numbered rules of the spec. Each docstring names the rule
it formalises. A statement about `exec` holds of every state and of every operand form of the instruction. -/

open Sys2Proof Sys2Proof.Machine

/-! ### Reset, start and the host's actions -/

/-- R300, R309: the host's reset works in every status, leaves the buffer and `L`, sets everything else to its reset
value, and no step follows until start. -/
def Obligations.HostResetSetsSpecValues : Prop :=
  ∀ s : State, ∃ t, hostAct .reset s = .next t ∧
    t.st = .idle ∧ t.cur = 0 ∧ t.faultKind = .none ∧ t.faultPos = 0 ∧ t.out = [] ∧
    t.cfgUnknownAbort = false ∧ t.cfgVerbose = false ∧ t.buf = s.buf ∧ t.inputLen = s.inputLen ∧
    step t = .fault (.noStepEnabled .idle)

/-- The model's state after power-on holds the reset values of R20's table. That `L` is 0, and that no byte of the
buffer is written so that each offset holds a free value, is the model's choice (assumption log 2 and 3). -/
def Obligations.PowerOnStateHoldsResetValues : Prop :=
  State.reset.st = .idle ∧ State.reset.cur = 0 ∧ State.reset.faultKind = .none ∧ State.reset.faultPos = 0 ∧
    State.reset.cfgUnknownAbort = false ∧ State.reset.cfgVerbose = false ∧ State.reset.out = [] ∧
    State.reset.inputLen = 0 ∧ (∀ a, State.reset.buf.read a = Config.unloadedByte a) ∧ State.reset.buf.wf

/-- R301: start in IDLE, and the boot sequence from any status: reset, the input's bytes and `L`, the configuration,
start. -/
def Obligations.BootSequenceStartsDecoder : Prop :=
  (∀ s : State, s.st = .idle →
    hostAct .start s = .next { s with st := .run, cur := 0, faultKind := .none, faultPos := 0 }) ∧
  ∀ (s : State) (input : List Byte) (abort verbose : Bool), input.length ≤ Config.lMax →
    ∃ t, hostActs (bootActions input abort verbose) s = .next t ∧
      t.st = .run ∧ t.cur = 0 ∧ t.faultKind = .none ∧ t.faultPos = 0 ∧ t.out = [] ∧
      t.cfgUnknownAbort = abort ∧ t.cfgVerbose = verbose ∧ t.inputLen = input.length ∧ t.bytesAtCursor input

/-- R302: start outside IDLE has no effect; after DONE or FAULT, reset and start begin a new run. -/
def Obligations.StartOutsideIdleHasNoEffect : Prop :=
  (∀ s : State, s.st ≠ .idle → hostAct .start s = .next s) ∧
  ∀ s : State, s.st = .done ∨ s.st = .fault →
    ∃ t, hostActs [.reset, .start] s = .next t ∧ t.st = .run ∧ t.cur = 0 ∧ t.out = []

/-- R57: host writes during RUN are refused, and nothing after them is given a meaning; in every other status they are
done. That a write beyond the capacity `L_MAX` is refused is the model's choice (assumption log 6): R57 says nothing
of it. -/
def Obligations.HostWritesDuringRunAreRefused : Prop :=
  (∀ (s : State) (a : HostAction) (later : List HostAction), s.st = .run → a ≠ .reset → a ≠ .start →
    hostAct a s = .refused .hostWriteDuringRun ∧ hostActs (a :: later) s = .refused .hostWriteDuringRun) ∧
  ∀ s : State, s.st ≠ .run →
    (∀ i v, hostAct (.writeBuf i v) s =
      if i < Config.lMax then .next { s with buf := s.buf.write i v } else .refused .beyondCapacity) ∧
    (∀ i v, (s.buf.write i v).read i = v ∧ ∀ a, a ≠ i → (s.buf.write i v).read a = s.buf.read a) ∧
    (∀ n, hostAct (.writeLen n) s =
      if n ≤ Config.lMax then .next { s with inputLen := n } else .refused .beyondCapacity) ∧
    (∀ b, hostAct (.writeUnknownAbort b) s = .next { s with cfgUnknownAbort := b }) ∧
    (∀ b, hostAct (.writeVerbose b) s = .next { s with cfgVerbose := b })

/-! ### The step -/

/-- R100: a step is enabled exactly in RUN, and decodes at most one instruction. The premise on the cursor rules out
states that no run reaches (assumption log 10). -/
def Obligations.StepEnabledExactlyInRun : Prop :=
  (∀ s : State, s.cur ≤ s.inputLen → ((∃ t, step s = .next t) ↔ s.st = .run)) ∧
  (∀ s : State, s.st ≠ .run → step s = .fault (.noStepEnabled s.st)) ∧
  ∀ s t : State, step s = .next t →
    t.out = s.out ∨ ∃ r i, recordOf i s.cur = some r ∧ t.out = s.out ++ [r] ∧ t.cur = s.cur + i.length

/-- At the end of the input a step sets DONE and changes nothing else (40_decode_cycle.md, normal termination). -/
def Obligations.EndOfInputSetsDone : Prop :=
  (∀ s : State, s.st = .run → s.cur = s.inputLen → step s = .next { s with st := .done }) ∧
  ∀ s t : State, step s = .next t → t.st = .done → s.cur = s.inputLen ∧ t = { s with st := .done }

/-- A step runs the instruction that the bytes at the cursor decode to (40_decode_cycle.md, fetch and dispatch); the
step adds nothing around `exec`, which itself moves the cursor. -/
def Obligations.StepRunsDecodedInstruction : Prop :=
  ∀ (s : State) (bs : List Byte) (i : Instr), s.st = .run → s.bytesAtCursor bs → decode bs = .ok (i, []) →
    step s = exec i s ∧ i.wellFormed = true

/-- R273: fault entry, for the truncated instruction and for the unknown opcode with the abort setting: status, kind
code and position are written, the cursor and the records stay, and no step is enabled afterwards. -/
def Obligations.FaultEntryWritesStatusKindAndPosition : Prop :=
  (∀ (s : State) (bs : List Byte), s.st = .run → s.bytesAtCursor bs → s.cur + bs.length = s.inputLen →
    decode bs = .error .truncated →
    ∃ t, step s = .next t ∧ t = { s with st := .fault, faultKind := .truncated, faultPos := s.cur } ∧
      t.faultKind.code = 0b01#2 ∧ step t = .fault (.noStepEnabled .fault)) ∧
  ∀ (s : State) (op : Byte), s.st = .run → s.bytesAtCursor [op] → classify op = none → s.cfgUnknownAbort = true →
    ∃ t, step s = .next t ∧ t = { s with st := .fault, faultKind := .unknownOpcode, faultPos := s.cur } ∧
      t.faultKind.code = 0b10#2 ∧ step t = .fault (.noStepEnabled .fault)

/-- R106, which the spec marks as derived from R101, R103, R104 and R200: every step from a RUN state sets DONE, sets
FAULT, or advances the cursor, and the run ends in DONE or FAULT within one step more than there are bytes left. -/
def Obligations.RunEndsWithinInputLengthPlusOne : Prop :=
  ∀ s : State, s.st = .run → s.cur ≤ s.inputLen →
    (∃ t, step s = .next t ∧
      ((t.st = .done ∧ t.cur = s.cur) ∨ (t.st = .fault ∧ t.cur = s.cur) ∨
        (t.st = .run ∧ s.cur + 1 ≤ t.cur ∧ t.cur ≤ s.inputLen))) ∧
    ∃ t, decodeRun (s.inputLen - s.cur + 1) s = .next t ∧ (t.st = .done ∨ t.st = .fault)

/-- Faults are precise (60_exceptions.md, fault entry): the faulting step emits nothing, keeps the cursor at the
opcode byte, and reports that position; UNKNOWN_OPCODE is raised before any byte after the opcode is examined
(60_exceptions.md, causes). -/
def Obligations.FaultsArePrecise : Prop :=
  ∀ s t : State, step s = .next t → t.st = .fault →
    t.out = s.out ∧ t.cur = s.cur ∧ t.faultPos = s.cur ∧ s.cur < s.inputLen ∧
      (t.faultKind = .unknownOpcode → ∀ m : Memory, m.read s.cur = s.buf.read s.cur →
        step { s with buf := m } = .next { t with buf := m })

/-- The two faults have causes that exclude each other (60_exceptions.md, causes and priority): TRUNCATED comes from
one of the three kinds that read further bytes, UNKNOWN_OPCODE from an unmatched byte under the abort setting. -/
def Obligations.FaultCausesExcludeEachOther : Prop :=
  ∀ s t : State, step s = .next t → t.st = .fault →
    (t.faultKind = .truncated ∧
        (classify (s.buf.read s.cur) = some .movRmReg ∨ classify (s.buf.read s.cur) = some .movImmRm ∨
          classify (s.buf.read s.cur) = some .movImmReg)) ∨
      (t.faultKind = .unknownOpcode ∧ classify (s.buf.read s.cur) = none ∧ s.cfgUnknownAbort = true)

/-- R276: FAULT is final until reset: no step, and no other host action, leaves it or changes what it reports. -/
def Obligations.FaultIsFinalUntilReset : Prop :=
  ∀ (events : List Event) (s t : State), s.st = .fault → .host .reset ∉ events → runEvents events s = .next t →
    t.st = .fault ∧ t.faultKind = s.faultKind ∧ t.faultPos = s.faultPos ∧ t.cur = s.cur ∧ t.out = s.out ∧
      step t = .fault (.noStepEnabled .fault)

/-- R62: records become visible one after another, all of them before DONE or FAULT, and `out` does not change from
then on until reset. -/
def Obligations.OutputGrowsInOrderAndFreezes : Prop :=
  (∀ s t : State, step s = .next t → t.out = s.out ∨ ∃ r, t.out = s.out ++ [r]) ∧
  (∀ s t : State, step s = .next t → t.st = .done ∨ t.st = .fault → t.out = s.out) ∧
  ∀ (events : List Event) (s t : State), s.st = .done ∨ s.st = .fault → .host .reset ∉ events →
    runEvents events s = .next t → t.out = s.out

/-- R54: a step writes the cursor, the status and fault registers and the records, and never the buffer. -/
def Obligations.StepWritesOnlyItsRegistersAndOutput : Prop :=
  ∀ s t : State, step s = .next t →
    (∀ a, t.buf.read a = s.buf.read a) ∧
      t = { s with cur := t.cur, st := t.st, faultKind := t.faultKind, faultPos := t.faultPos, out := t.out }

/-- R25, R26: the fault registers are written only when the status goes to FAULT; reset and start clear them. -/
def Obligations.FaultRegistersWrittenOnlyByFaults : Prop :=
  FaultKind.code .none = 0b00#2 ∧ FaultKind.code .truncated = 0b01#2 ∧ FaultKind.code .unknownOpcode = 0b10#2 ∧
  (∀ k, FaultKind.code k ≠ 0b11#2) ∧
  (∀ s t : State, step s = .next t → t.st ≠ .fault → t.faultKind = s.faultKind ∧ t.faultPos = s.faultPos) ∧
  (∀ s t : State, step s = .next t → t.st = .fault → t.faultPos = s.cur) ∧
  (∀ s t : State, hostAct .reset s = .next t → t.faultKind = .none ∧ t.faultPos = 0) ∧
  (∀ s t : State, s.st = .idle → hostAct .start s = .next t → t.faultKind = .none ∧ t.faultPos = 0) ∧
  ∀ (s t : State) (a : HostAction), a ≠ .reset → a ≠ .start → hostAct a s = .next t →
    t.faultKind = s.faultKind ∧ t.faultPos = s.faultPos

/-- R24: the codes of the status register, its reset value, and which of them enables steps. -/
def Obligations.StatusCodesAndEnabledSteps : Prop :=
  Status.code .idle = 0b00#2 ∧ Status.code .run = 0b01#2 ∧ Status.code .done = 0b10#2 ∧ Status.code .fault = 0b11#2 ∧
  State.reset.st = .idle ∧ ∀ s t : State, step s = .next t → s.st.code = 0b01#2

/-! ### Classification, encoding and lengths -/

/-- R73: the classifier takes the first matching row of the priority table, and no byte matches two rows. -/
def Obligations.ClassifierIsThePriorityTable : Prop :=
  (∀ op : Byte, classify op =
    if op &&& 0xFC#8 = 0x88#8 then some .movRmReg
    else if op &&& 0xFE#8 = 0xC6#8 then some .movImmRm
    else if op &&& 0xF0#8 = 0xB0#8 then some .movImmReg
    else if op &&& 0xFE#8 = 0xA0#8 then some .phMemToAcc
    else if op &&& 0xFE#8 = 0xA2#8 then some .phAccToMem
    else if op &&& 0xFF#8 = 0x8E#8 then some .phRmToSreg
    else if op &&& 0xFF#8 = 0x8C#8 then some .phSregToRm
    else none) ∧
  ∀ op : Byte, (opcodeRows.filter (·.accepts op)).length ≤ 1

/-- R74, which the spec marks as derived from R73: the kind of every byte value, the width and direction bits it
names, and the counts. -/
def Obligations.ClassifierListing : Prop :=
  (∀ op : Byte, classify op =
    if 0x88 ≤ op.toNat ∧ op.toNat ≤ 0x8B then some .movRmReg
    else if op.toNat = 0x8C then some .phSregToRm
    else if op.toNat = 0x8E then some .phRmToSreg
    else if 0xA0 ≤ op.toNat ∧ op.toNat ≤ 0xA1 then some .phMemToAcc
    else if 0xA2 ≤ op.toNat ∧ op.toNat ≤ 0xA3 then some .phAccToMem
    else if 0xB0 ≤ op.toNat ∧ op.toNat ≤ 0xBF then some .movImmReg
    else if 0xC6 ≤ op.toNat ∧ op.toNat ≤ 0xC7 then some .movImmRm
    else none) ∧
  (opD 0x88#8 = 0#1 ∧ opW 0x88#8 = 0#1) ∧ (opD 0x89#8 = 0#1 ∧ opW 0x89#8 = 1#1) ∧
  (opD 0x8A#8 = 1#1 ∧ opW 0x8A#8 = 0#1) ∧ (opD 0x8B#8 = 1#1 ∧ opW 0x8B#8 = 1#1) ∧
  (opW 0xC6#8 = 0#1 ∧ opW 0xC7#8 = 1#1) ∧
  (∀ k : Fin 8, opRegW (BitVec.ofNat 8 (0xB0 + k)) = 0#1 ∧ opRegW (BitVec.ofNat 8 (0xB8 + k)) = 1#1 ∧
    opReg (BitVec.ofNat 8 (0xB0 + k)) = BitVec.ofNat 3 k ∧ opReg (BitVec.ofNat 8 (0xB8 + k)) = BitVec.ofNat 3 k) ∧
  ((List.range 256).filter fun n => (classify (BitVec.ofNat 8 n)).isSome).length = 28 ∧
  ((List.range 256).filter fun n => (classify (BitVec.ofNat 8 n)).isNone).length = 228

/-- R78, which the spec marks as derived from R73 and R74 (the list of the 8086's prefix bytes is its general
knowledge): each prefix byte is unknown; with the skip setting it is skipped, and the next step decodes what follows
as if the prefix were absent. -/
def Obligations.PrefixBytesAreSkipped : Prop :=
  (∀ op ∈ [0x26#8, 0x2E#8, 0x36#8, 0x3E#8, 0xF0#8, 0xF2#8, 0xF3#8], classify op = none) ∧
  ∀ (s : State) (op : Byte) (bs : List Byte) (i : Instr), s.st = .run → s.cfgUnknownAbort = false →
    op ∈ [0x26#8, 0x2E#8, 0x36#8, 0x3E#8, 0xF0#8, 0xF2#8, 0xF3#8] → s.bytesAtCursor (op :: bs) →
    decode bs = .ok (i, []) →
    step s = .next { s with cur := s.cur + 1 } ∧
      step { s with cur := s.cur + 1 } = exec i { s with cur := s.cur + 1 }

/-- Decoding the encoding of a well-formed instruction gives it back, whatever bytes follow. -/
def Obligations.DecodeOfEncodeGivesInstruction : Prop :=
  ∀ (i : Instr) (more : List Byte), i.wellFormed = true → decode (encode i ++ more) = .ok (i, more)

/-- What is decoded encodes to exactly the bytes it was decoded from: no bit is dropped, and each byte sequence is one
instruction. It rests on the model's choice to keep the don't-care bits of R79 in the instruction term (assumption log
17); no rule asks for that. -/
def Obligations.EncodeOfDecodedGivesBytes : Prop :=
  ∀ (bs rest : List Byte) (i : Instr), decode bs = .ok (i, rest) → encode i ++ rest = bs ∧ i.wellFormed = true

/-- R75: the displacement and immediate lengths, the length of every form by its first bytes, truncation exactly below
that length, and the two lengths of an unknown opcode. -/
def Obligations.DecodeConsumesTabulatedLength : Prop :=
  (∀ rm, dispLen .mem0 rm = (if rm = 0b110#3 then 2 else 0) ∧ dispLen .mem8 rm = 1 ∧ dispLen .mem16 rm = 2 ∧
    dispLen .reg rm = 0) ∧
  (immLen 0#1 = 1 ∧ immLen 1#1 = 2) ∧
  (∀ (op modrm : Byte) (bs : List Byte),
    (classify op = some .movRmReg →
      requiredLength (op :: modrm :: bs) = 2 + dispLen (modeOfMod (modrmMod modrm)) (modrmRm modrm)) ∧
    (classify op = some .movImmRm →
      requiredLength (op :: modrm :: bs) =
        2 + dispLen (modeOfMod (modrmMod modrm)) (modrmRm modrm) + immLen (opW op))) ∧
  (∀ (op : Byte) (bs : List Byte),
    (classify op = some .movImmReg → requiredLength (op :: bs) = 1 + immLen (opRegW op)) ∧
    (classify op = some .phMemToAcc ∨ classify op = some .phAccToMem ∨ classify op = some .phRmToSreg ∨
      classify op = some .phSregToRm ∨ classify op = none → requiredLength (op :: bs) = 1)) ∧
  (∀ (bs rest : List Byte) (i : Instr), decode bs = .ok (i, rest) →
    i.length = requiredLength bs ∧ bs.length = i.length + rest.length) ∧
  (∀ (op : Byte) (bs : List Byte),
    decode (op :: bs) = .error .truncated ↔ (op :: bs).length < requiredLength (op :: bs)) ∧
  ∀ (op : Byte) (s t : State), exec (.unknownOpcode op) s = .next t →
    t.out = s.out ∧ t.cur = if s.cfgUnknownAbort then s.cur else s.cur + 1

/-- R210, which the spec marks as derived from the source's enumeration order: the mod field names the four addressing
modes totally, with the displacement that each reads. -/
def Obligations.ModFieldNamesFourModes : Prop :=
  modeOfMod 0b00#2 = .mem0 ∧ modeOfMod 0b01#2 = .mem8 ∧ modeOfMod 0b10#2 = .mem16 ∧ modeOfMod 0b11#2 = .reg ∧
  (∀ mode : Mode, ∃ mod, modeOfMod mod = mode) ∧
  ∀ rm, dispLen (modeOfMod 0b00#2) rm = (if rm = 0b110#3 then 2 else 0) ∧ dispLen (modeOfMod 0b01#2) rm = 1 ∧
    dispLen (modeOfMod 0b10#2) rm = 2 ∧ dispLen (modeOfMod 0b11#2) rm = 0

/-- A few words written out bit by bit from the encodings of 30_encoding.md decode to the instructions they stand for.
-/
def Obligations.SpecWordsDecode : Prop :=
  decode [0b10001001#8, 0b11011000#8] = .ok (.movRm16R16 (.reg 0b000#3) 0b011#3, []) ∧
  decode [0b10001010#8, 0b01000110#8, 0#8] = .ok (.movR8Rm8 0b000#3 (.based8 0b110#3 0#8), []) ∧
  decode [0b11000111#8, 0b00000110#8, 0xE8#8, 0x03#8, 0x2C#8, 0x01#8] =
    .ok (.movRm16Imm16 0#3 (.direct 1000#16) 300#16, []) ∧
  decode [0b10111000#8, 0x05#8, 0x00#8] = .ok (.movRImm 1#1 0b000#3 5#16, []) ∧
  decode [0b10100001#8, 0x34#8] = .ok (.phMemToAcc 1#1, [0x34#8]) ∧
  decode [0b10010000#8] = .ok (.unknownOpcode 0x90#8, [])

/-- R107: two runs whose cursors stand at the same bytes, under the same abort setting, decode the same record but for
its position, whatever their histories, buffers and other registers; and whether an instruction is truncated depends
on where `L` lies. -/
def Obligations.DecodingDependsOnItsBytesOnly : Prop :=
  (∀ (s₁ s₂ : State) (bs : List Byte) (i : Instr), s₁.st = .run → s₂.st = .run →
    s₁.cfgUnknownAbort = s₂.cfgUnknownAbort → s₁.bytesAtCursor bs → s₂.bytesAtCursor bs → decode bs = .ok (i, []) →
    ∃ t₁ t₂ n rs, step s₁ = .next t₁ ∧ step s₂ = .next t₂ ∧ t₁.st = t₂.st ∧
      t₁.cur = s₁.cur + n ∧ t₂.cur = s₂.cur + n ∧
      t₁.out = s₁.out ++ List.map (fun r : Record => r.at s₁.cur) rs ∧
      t₂.out = s₂.out ++ List.map (fun r : Record => r.at s₂.cur) rs) ∧
  ∀ (s₁ s₂ : State) (bs : List Byte), s₁.st = .run → s₂.st = .run → s₁.bytesAtCursor bs → s₂.bytesAtCursor bs →
    s₁.cur + bs.length = s₁.inputLen → s₂.cur + bs.length = s₂.inputLen → decode bs = .error .truncated →
    ∃ t₁ t₂, step s₁ = .next t₁ ∧ step s₂ = .next t₂ ∧ t₁.st = .fault ∧ t₂.st = .fault ∧
      t₁.faultKind = .truncated ∧ t₂.faultKind = .truncated

/-- R79, R144: ModRM bits 5:3 of C6 and C7 are accepted at every value and change neither length nor record; the low
bit of A0-A3 shows in the record's opcode only. -/
def Obligations.DontCareBitsChangeNothing : Prop :=
  (∀ (ign ign' : BitVec 3) (m : RmForm) (imm : Byte) (s : State), m.wellFormed = true →
    decode (encode (.movRm8Imm8 ign m imm)) = .ok (.movRm8Imm8 ign m imm, []) ∧
      Instr.length (.movRm8Imm8 ign m imm) = Instr.length (.movRm8Imm8 ign' m imm) ∧
      exec (.movRm8Imm8 ign m imm) s = exec (.movRm8Imm8 ign' m imm) s) ∧
  (∀ (ign ign' : BitVec 3) (m : RmForm) (imm : Half) (s : State), m.wellFormed = true →
    decode (encode (.movRm16Imm16 ign m imm)) = .ok (.movRm16Imm16 ign m imm, []) ∧
      Instr.length (.movRm16Imm16 ign m imm) = Instr.length (.movRm16Imm16 ign' m imm) ∧
      exec (.movRm16Imm16 ign m imm) s = exec (.movRm16Imm16 ign' m imm) s) ∧
  (∀ (i : Instr) (p : Nat) (r : Record), recordOf i p = some r → r.kind = .movImmRm → r.reg = none) ∧
  ∀ (i j : Instr) (p : Nat) (r r' : Record),
    (∃ w w', (i = .phMemToAcc w ∧ j = .phMemToAcc w') ∨ (i = .phAccToMem w ∧ j = .phAccToMem w')) →
    recordOf i p = some r → recordOf j p = some r' → r = { r' with opcode := r.opcode }

/-! ### What each instruction does -/

/-- R121, which the spec marks as derived from R120: 88 is `mov r/m8, r8`. The record it emits, the cursor, and
nothing else. -/
def Obligations.MovRm8R8Emits : Prop :=
  (∀ (dst : RmForm) (src : BitVec 3) (s : State), s.cur + (2 + dispLen dst.mode dst.rm) ≤ s.inputLen →
    exec (.movRm8R8 dst src) s = .next { s with
      cur := s.cur + (2 + dispLen dst.mode dst.rm)
      out := s.out ++ [{
        kind := .movRmReg, pos := s.cur, len := 2 + dispLen dst.mode dst.rm, opcode := 0x88#8
        w := some 0#1, d := some 0#1, mode := some dst.mode, reg := some src, rm := some dst.rm
        disp := rmDisp dst, imm := none
        dst := some (rmOperand 0#1 none dst), src := some (.reg (0#1 ++ src)) }] }) ∧
  (∀ (dst : RmForm) (src : BitVec 3), (encode (.movRm8R8 dst src)).head? = some 0x88#8) ∧
  decode [0x88#8, 0xE5#8] = .ok (.movRm8R8 (.reg 0b101#3) 0b100#3, []) ∧
  (recordOf (.movRm8R8 (.reg 0b101#3) 0b100#3) 0).map (fun r => (r.len, line r)) = some (2, "mov ch, ah".toList)

/-- R122, which the spec marks as derived from R120 and R216: 89 is `mov r/m16, r16`. -/
def Obligations.MovRm16R16Emits : Prop :=
  (∀ (dst : RmForm) (src : BitVec 3) (s : State), s.cur + (2 + dispLen dst.mode dst.rm) ≤ s.inputLen →
    exec (.movRm16R16 dst src) s = .next { s with
      cur := s.cur + (2 + dispLen dst.mode dst.rm)
      out := s.out ++ [{
        kind := .movRmReg, pos := s.cur, len := 2 + dispLen dst.mode dst.rm, opcode := 0x89#8
        w := some 1#1, d := some 0#1, mode := some dst.mode, reg := some src, rm := some dst.rm
        disp := rmDisp dst, imm := none
        dst := some (rmOperand 1#1 none dst), src := some (.reg (1#1 ++ src)) }] }) ∧
  (∀ (dst : RmForm) (src : BitVec 3), (encode (.movRm16R16 dst src)).head? = some 0x89#8) ∧
  decode [0x89#8, 0x1E#8, 0xE8#8, 0x03#8] = .ok (.movRm16R16 (.direct 1000#16) 0b011#3, []) ∧
  (recordOf (.movRm16R16 (.direct 1000#16) 0b011#3) 0).map (fun r => (r.len, line r)) =
    some (4, "mov [1000], bx".toList)

/-- R123, which the spec marks as derived from R120 and R218: 8A is `mov r8, r/m8`. -/
def Obligations.MovR8Rm8Emits : Prop :=
  (∀ (dst : BitVec 3) (src : RmForm) (s : State), s.cur + (2 + dispLen src.mode src.rm) ≤ s.inputLen →
    exec (.movR8Rm8 dst src) s = .next { s with
      cur := s.cur + (2 + dispLen src.mode src.rm)
      out := s.out ++ [{
        kind := .movRmReg, pos := s.cur, len := 2 + dispLen src.mode src.rm, opcode := 0x8A#8
        w := some 0#1, d := some 1#1, mode := some src.mode, reg := some dst, rm := some src.rm
        disp := rmDisp src, imm := none
        dst := some (.reg (0#1 ++ dst)), src := some (rmOperand 0#1 none src) }] }) ∧
  (∀ (dst : BitVec 3) (src : RmForm), (encode (.movR8Rm8 dst src)).head? = some 0x8A#8) ∧
  decode [0x8A#8, 0x46#8, 0x00#8] = .ok (.movR8Rm8 0b000#3 (.based8 0b110#3 0#8), []) ∧
  (recordOf (.movR8Rm8 0b000#3 (.based8 0b110#3 0#8)) 0).map (fun r => (r.len, line r)) =
    some (3, "mov al, [bp]".toList)

/-- R124, which the spec marks as derived from R120: 8B is `mov r16, r/m16`. -/
def Obligations.MovR16Rm16Emits : Prop :=
  (∀ (dst : BitVec 3) (src : RmForm) (s : State), s.cur + (2 + dispLen src.mode src.rm) ≤ s.inputLen →
    exec (.movR16Rm16 dst src) s = .next { s with
      cur := s.cur + (2 + dispLen src.mode src.rm)
      out := s.out ++ [{
        kind := .movRmReg, pos := s.cur, len := 2 + dispLen src.mode src.rm, opcode := 0x8B#8
        w := some 1#1, d := some 1#1, mode := some src.mode, reg := some dst, rm := some src.rm
        disp := rmDisp src, imm := none
        dst := some (.reg (1#1 ++ dst)), src := some (rmOperand 1#1 none src) }] }) ∧
  (∀ (dst : BitVec 3) (src : RmForm), (encode (.movR16Rm16 dst src)).head? = some 0x8B#8) ∧
  decode [0x8B#8, 0x1E#8, 0xE8#8, 0x03#8] = .ok (.movR16Rm16 0b011#3 (.direct 1000#16), []) ∧
  (recordOf (.movR16Rm16 0b011#3 (.direct 1000#16)) 0).map (fun r => (r.len, line r)) =
    some (4, "mov bx, [1000]".toList)

/-- R141, which the spec marks as derived from R140: C6 is `mov r/m8, imm8`. Its example names the base expression of
selector 011 (the spec's decision D24). -/
def Obligations.MovRm8Imm8Emits : Prop :=
  (∀ (ign : BitVec 3) (dst : RmForm) (imm : Byte) (s : State),
    s.cur + (2 + dispLen dst.mode dst.rm + 1) ≤ s.inputLen →
    exec (.movRm8Imm8 ign dst imm) s = .next { s with
      cur := s.cur + (2 + dispLen dst.mode dst.rm + 1)
      out := s.out ++ [{
        kind := .movImmRm, pos := s.cur, len := 2 + dispLen dst.mode dst.rm + 1, opcode := 0xC6#8
        w := some 0#1, d := none, mode := some dst.mode, reg := none, rm := some dst.rm
        disp := rmDisp dst, imm := some (zext16 imm)
        dst := some (rmOperand 0#1 (some .byte) dst), src := some (.imm (zext16 imm) .byte) }] }) ∧
  (∀ (ign : BitVec 3) (dst : RmForm) (imm : Byte), (encode (.movRm8Imm8 ign dst imm)).head? = some 0xC6#8) ∧
  decode [0xC6#8, 0x03#8, 0x07#8] = .ok (.movRm8Imm8 0#3 (.based 0b011#3) 7#8, []) ∧
  (recordOf (.movRm8Imm8 0#3 (.based 0b011#3) 7#8) 0).map (fun r => (r.len, line r)) =
    some (3, "mov byte [bp + di], 7".toList)

/-- R142, which the spec marks as derived from R140: C7 is `mov r/m16, imm16`. -/
def Obligations.MovRm16Imm16Emits : Prop :=
  (∀ (ign : BitVec 3) (dst : RmForm) (imm : Half) (s : State),
    s.cur + (2 + dispLen dst.mode dst.rm + 2) ≤ s.inputLen →
    exec (.movRm16Imm16 ign dst imm) s = .next { s with
      cur := s.cur + (2 + dispLen dst.mode dst.rm + 2)
      out := s.out ++ [{
        kind := .movImmRm, pos := s.cur, len := 2 + dispLen dst.mode dst.rm + 2, opcode := 0xC7#8
        w := some 1#1, d := none, mode := some dst.mode, reg := none, rm := some dst.rm
        disp := rmDisp dst, imm := some imm
        dst := some (rmOperand 1#1 (some .word) dst), src := some (.imm imm .word) }] }) ∧
  (∀ (ign : BitVec 3) (dst : RmForm) (imm : Half), (encode (.movRm16Imm16 ign dst imm)).head? = some 0xC7#8) ∧
  decode [0xC7#8, 0x06#8, 0xE8#8, 0x03#8, 0x2C#8, 0x01#8] = .ok (.movRm16Imm16 0#3 (.direct 1000#16) 300#16, []) ∧
  (recordOf (.movRm16Imm16 0#3 (.direct 1000#16) 300#16) 0).map (fun r => (r.len, line r)) =
    some (6, "mov word [1000], 300".toList)

/-- R161, whose map of names the spec marks as derived from R241: B0-BF name their destination by the opcode's low
nibble; the record they emit, and the sixteen names. -/
def Obligations.MovRImmEmits : Prop :=
  (∀ (w : BitVec 1) (reg : BitVec 3) (imm : Half) (s : State), s.cur + (2 + w.toNat) ≤ s.inputLen →
    exec (.movRImm w reg imm) s = .next { s with
      cur := s.cur + (2 + w.toNat)
      out := s.out ++ [{
        kind := .movImmReg, pos := s.cur, len := 2 + w.toNat, opcode := 0b1011#4 ++ w ++ reg
        w := some w, d := none, mode := none, reg := some reg, rm := none
        disp := none, imm := some imm
        dst := some (.reg (w ++ reg)), src := some (.imm imm (if w = 0#1 then .byte else .word)) }] }) ∧
  (∀ (w : BitVec 1) (reg : BitVec 3) (imm : Half),
    (encode (.movRImm w reg imm)).head? = some (0b1011#4 ++ w ++ reg) ∧
      BitVec.extractLsb' 0 4 (0b1011#4 ++ w ++ reg : Byte) = w ++ reg) ∧
  ((List.range 16).map fun n => regName (BitVec.extractLsb' 0 4 (BitVec.ofNat 8 (0xB0 + n)))) =
    ["al", "cl", "dl", "bl", "ah", "ch", "dh", "bh", "ax", "cx", "dx", "bx", "sp", "bp", "si", "di"].map
      (fun n : String => n.toList)

/-- R181-R184: the placeholder forms consume their opcode byte, record the kind and that byte, and nothing else; no
byte after it plays a part, so they cannot be truncated. -/
def Obligations.PlaceholderFormsRecordOneByte : Prop :=
  (∀ (w : BitVec 1) (s : State), exec (.phMemToAcc w) s = .next { s with
    cur := s.cur + 1
    out := s.out ++ [{ kind := .phMemToAcc, pos := s.cur, len := 1, opcode := 0b1010000#7 ++ w, w := none, d := none,
                       mode := none, reg := none, rm := none, disp := none, imm := none, dst := none, src := none }] }) ∧
  (∀ (w : BitVec 1) (s : State), exec (.phAccToMem w) s = .next { s with
    cur := s.cur + 1
    out := s.out ++ [{ kind := .phAccToMem, pos := s.cur, len := 1, opcode := 0b1010001#7 ++ w, w := none, d := none,
                       mode := none, reg := none, rm := none, disp := none, imm := none, dst := none, src := none }] }) ∧
  (∀ s : State, exec .phRmToSreg s = .next { s with
    cur := s.cur + 1
    out := s.out ++ [{ kind := .phRmToSreg, pos := s.cur, len := 1, opcode := 0x8E#8, w := none, d := none,
                       mode := none, reg := none, rm := none, disp := none, imm := none, dst := none, src := none }] }) ∧
  (∀ s : State, exec .phSregToRm s = .next { s with
    cur := s.cur + 1
    out := s.out ++ [{ kind := .phSregToRm, pos := s.cur, len := 1, opcode := 0x8C#8, w := none, d := none,
                       mode := none, reg := none, rm := none, disp := none, imm := none, dst := none, src := none }] }) ∧
  (∀ bs : List Byte,
    decode (0xA0#8 :: bs) = .ok (.phMemToAcc 0#1, bs) ∧ decode (0xA1#8 :: bs) = .ok (.phMemToAcc 1#1, bs) ∧
    decode (0xA2#8 :: bs) = .ok (.phAccToMem 0#1, bs) ∧ decode (0xA3#8 :: bs) = .ok (.phAccToMem 1#1, bs) ∧
    decode (0x8E#8 :: bs) = .ok (.phRmToSreg, bs) ∧ decode (0x8C#8 :: bs) = .ok (.phSregToRm, bs)) ∧
  kindCode .phMemToAcc = 3#3 ∧ kindCode .phAccToMem = 4#3 ∧ kindCode .phRmToSreg = 5#3 ∧ kindCode .phSregToRm = 6#3

/-- R200: with the skip setting an unknown opcode consumes one byte, emits nothing and does not fault; at the end of
the input the next step then sets DONE. -/
def Obligations.UnknownOpcodeIsSkipped : Prop :=
  (∀ (op : Byte) (s : State), s.cfgUnknownAbort = false →
    exec (.unknownOpcode op) s = .next { s with cur := s.cur + 1 }) ∧
  (∀ op : Byte, Instr.wellFormed (.unknownOpcode op) = true ↔ classify op = none) ∧
  ((List.range 256).filter fun n => (classify (BitVec.ofNat 8 n)).isNone).length = 228 ∧
  ∀ (s : State) (op : Byte), s.st = .run → s.cfgUnknownAbort = false → s.bytesAtCursor [op] → classify op = none →
    step s = .next { s with cur := s.cur + 1 } ∧
      (s.cur + 1 = s.inputLen →
        step { s with cur := s.cur + 1 } = .next { s with cur := s.cur + 1, st := .done })

/-- R201: with the abort setting an unknown opcode faults: the byte is not consumed, and earlier records stay. -/
def Obligations.UnknownOpcodeAborts : Prop :=
  (∀ (op : Byte) (s : State), s.cfgUnknownAbort = true →
    exec (.unknownOpcode op) s = .next { s with st := .fault, faultKind := .unknownOpcode, faultPos := s.cur }) ∧
  ∀ (s : State) (op : Byte), s.st = .run → s.cfgUnknownAbort = true → s.bytesAtCursor [op] → classify op = none →
    step s = .next { s with st := .fault, faultKind := .unknownOpcode, faultPos := s.cur }

/-- An instruction that reads bytes after its opcode raises TRUNCATED when they do not all lie below `L`
(41_mov_rm_reg.md, 42_mov_imm_rm.md, 43_mov_imm_reg.md: exceptions). -/
def Obligations.MovFormsTruncateBeyondInput : Prop :=
  ∀ (i : Instr) (s : State),
    (∃ r, recordOf i s.cur = some r ∧ isMovKind r.kind = true) → s.inputLen < s.cur + i.length →
    exec i s = .next { s with st := .fault, faultKind := .truncated, faultPos := s.cur }

/-- The frame of every instruction: what it leaves unchanged. On a commit only the cursor and the records change, on a
skip only the cursor, on a fault only the status and fault registers; the buffer, `L` and the configuration never do.
No form stores to the buffer, so every byte of it reads as before. -/
def Obligations.InstructionsLeaveTheRestUnchanged : Prop :=
  ∀ (i : Instr) (s t : State), exec i s = .next t →
    (∀ a, t.buf.read a = s.buf.read a) ∧ t.buf = s.buf ∧ t.inputLen = s.inputLen ∧
    t.cfgUnknownAbort = s.cfgUnknownAbort ∧ t.cfgVerbose = s.cfgVerbose ∧
    ((t.st = s.st ∧ t.faultKind = s.faultKind ∧ t.faultPos = s.faultPos ∧ t.cur = s.cur + i.length ∧
        ((∃ r, recordOf i s.cur = some r ∧ t.out = s.out ++ [r]) ∨
          (recordOf i s.cur = none ∧ s.cfgUnknownAbort = false ∧ t.out = s.out))) ∨
      (t.st = .fault ∧ t.faultPos = s.cur ∧ t.cur = s.cur ∧ t.out = s.out ∧
        ((t.faultKind = .truncated ∧ s.inputLen < s.cur + i.length) ∨
          (t.faultKind = .unknownOpcode ∧ recordOf i s.cur = none ∧ s.cfgUnknownAbort = true))))

/-! ### Operands -/

/-- R214: what `ReadRM` reads and answers for each mod, and when it fails. -/
def Obligations.ReadRmFollowsMod : Prop :=
  (∀ (w : BitVec 1) (kw : Option Width) (rm : BitVec 3) (bs : List Byte),
    ∃ m, readRmForm 0b11#2 rm bs = .ok (m, bs) ∧ rmOperand w kw m = .reg (w ++ rm) ∧ rmDisp m = none) ∧
  (∀ (w : BitVec 1) (kw : Option Width) (lo hi : Byte) (bs : List Byte),
    ∃ m, readRmForm 0b00#2 0b110#3 (lo :: hi :: bs) = .ok (m, bs) ∧
      rmOperand w kw m = .mem (.direct (hi ++ lo)) kw ∧ rmDisp m = some (.directAddr (hi ++ lo))) ∧
  (∀ (w : BitVec 1) (kw : Option Width) (rm : BitVec 3) (bs : List Byte), rm ≠ 0b110#3 →
    ∃ m, readRmForm 0b00#2 rm bs = .ok (m, bs) ∧ rmOperand w kw m = .mem (.based rm) kw ∧ rmDisp m = none) ∧
  (∀ (w : BitVec 1) (kw : Option Width) (rm : BitVec 3) (b : Byte) (bs : List Byte),
    ∃ m, readRmForm 0b01#2 rm (b :: bs) = .ok (m, bs) ∧
      rmOperand w kw m = .mem (.basedDisp rm (b.signExtend 16)) kw ∧ rmDisp m = some (.d8 (b.signExtend 16))) ∧
  (∀ (w : BitVec 1) (kw : Option Width) (rm : BitVec 3) (lo hi : Byte) (bs : List Byte),
    ∃ m, readRmForm 0b10#2 rm (lo :: hi :: bs) = .ok (m, bs) ∧
      rmOperand w kw m = .mem (.basedDisp rm (hi ++ lo)) kw ∧ rmDisp m = some (.d16 (hi ++ lo))) ∧
  ∀ (mod : BitVec 2) (rm : BitVec 3) (bs : List Byte),
    readRmForm mod rm bs = .error .truncated ↔ bs.length < dispLen (modeOfMod mod) rm

/-- R51 (the byte order, which the spec marks as derived from the source's worked example), R76 and R143: how
displacements, addresses and immediates are assembled from instruction bytes, for the data read of C6 and C7 after the
addressing read too. -/
def Obligations.FieldsAssembleFromBytes : Prop :=
  (∀ lo hi : Byte, (halfOfBytes lo hi).toNat = lo.toNat + 256 * hi.toNat) ∧
  (∀ (rm : BitVec 3) (b : Byte), rmDisp (.based8 rm b) = some (.d8 (sext16 b)) ∧
    (sext16 b).toInt = if b.getLsbD 7 then (b.toNat : Int) - 256 else b.toNat) ∧
  (∀ (rm : BitVec 3) (lo hi : Byte) (rest : List Byte),
    readRmForm 0b10#2 rm (lo :: hi :: rest) = .ok (.based16 rm (halfOfBytes lo hi), rest) ∧
      (halfOfBytes lo hi).toInt =
        if hi.getLsbD 7 then (lo.toNat : Int) + 256 * hi.toNat - 65536 else lo.toNat + 256 * hi.toNat) ∧
  (∀ (lo hi : Byte) (rest : List Byte),
    readRmForm 0b00#2 0b110#3 (lo :: hi :: rest) = .ok (.direct (halfOfBytes lo hi), rest)) ∧
  (∀ (b : Byte) (rest : List Byte), needImm 0#1 (b :: rest) = .ok (zext16 b, rest) ∧
    (zext16 b).toNat = b.toNat ∧ (zext16 b).toNat < 256) ∧
  (∀ (lo hi : Byte) (rest : List Byte), needImm 1#1 (lo :: hi :: rest) = .ok (halfOfBytes lo hi, rest)) ∧
  (∀ (modrm b : Byte) (bs rest : List Byte) (m : RmForm) (p : Nat),
    readRmForm (modrmMod modrm) (modrmRm modrm) bs = .ok (m, b :: rest) →
    decode (0xC6#8 :: modrm :: bs) = .ok (.movRm8Imm8 (modrmReg modrm) m b, rest) ∧
      (recordOf (.movRm8Imm8 (modrmReg modrm) m b) p).bind (·.imm) = some (zext16 b)) ∧
  ∀ (modrm lo hi : Byte) (bs rest : List Byte) (m : RmForm) (p : Nat),
    readRmForm (modrmMod modrm) (modrmRm modrm) bs = .ok (m, lo :: hi :: rest) →
    decode (0xC7#8 :: modrm :: bs) = .ok (.movRm16Imm16 (modrmReg modrm) m (halfOfBytes lo hi), rest) ∧
      (recordOf (.movRm16Imm16 (modrmReg modrm) m (halfOfBytes lo hi)) p).bind (·.imm) = some (halfOfBytes lo hi)

/-- R125, R145, R162: only the memory destination of an immediate carries a width keyword, `byte` for `w = 0` and
`word` for `w = 1`; no immediate operand and no operand of another form does. -/
def Obligations.OnlyImmediateToMemoryCarriesKeyword : Prop :=
  ∀ (s t : State) (r : Record), step s = .next t → t.out = s.out ++ [r] →
    (r.kind = .movRmReg → r.imm = none ∧
      ∃ dst src, r.dst = some dst ∧ r.src = some src ∧ dst.keyword = none ∧ src.keyword = none) ∧
    (r.kind = .movImmRm → ∃ dst v width w, r.dst = some dst ∧ r.src = some (.imm v width) ∧ r.w = some w ∧
      dst.keyword =
        if r.mode = some .reg then none else if w = 0#1 then some .byte else some .word) ∧
    (r.kind = .movImmReg → ∃ key v width, r.dst = some (.reg key) ∧ r.src = some (.imm v width))

/-! ### Text -/

/-- R241 (whose order the spec marks as derived from the source's listing order) and R242: the register-name table
over all sixteen keys, the width bit being the key's high bit. -/
def Obligations.RegisterNameTable : Prop :=
  ((List.finRange 8).map fun k => regName (regKey 0#1 (BitVec.ofFin k))) =
    ["al", "cl", "dl", "bl", "ah", "ch", "dh", "bh"].map (fun n : String => n.toList) ∧
  ((List.finRange 8).map fun k => regName (regKey 1#1 (BitVec.ofFin k))) =
    ["ax", "cx", "dx", "bx", "sp", "bp", "si", "di"].map (fun n : String => n.toList) ∧
  ∀ (w : BitVec 1) (sel : BitVec 3), (regKey w sel).toNat = w.toNat * 8 + sel.toNat

/-- R213, R215-R218, R221: the text of a memory operand in every mode, with the one zero displacement that is not
rendered. The entries 001, 010, 011, 101 and 111 of the base table are the spec's decision D24, the text of -32768 its
decision D11. -/
def Obligations.MemoryOperandText : Prop :=
  ((List.finRange 8).map fun k => baseExpr (BitVec.ofFin k)) =
    ["bx + si", "bx + di", "bp + si", "bp + di", "si", "di", "bp", "bx"].map (fun n : String => n.toList) ∧
  (∀ rm : BitVec 3, rm ≠ 0b110#3 → memText (.based rm) = '[' :: baseExpr rm ++ [']']) ∧
  (∀ a : Half, memText (.direct a) = '[' :: Nat.toDigits 10 a.toNat ++ [']']) ∧
  (∀ (rm : BitVec 3) (d : Half), ¬ (rm = 0b110#3 ∧ d.toInt = 0) →
    (0 ≤ d.toInt → memText (.basedDisp rm d) =
      '[' :: baseExpr rm ++ [' ', '+', ' '] ++ Nat.toDigits 10 d.toInt.toNat ++ [']']) ∧
    (d.toInt < 0 → memText (.basedDisp rm d) =
      '[' :: baseExpr rm ++ [' ', '-', ' '] ++ Nat.toDigits 10 (-d.toInt).toNat ++ [']'])) ∧
  memText (.basedDisp 0b110#3 0#16) = ['[', 'b', 'p', ']'] ∧
  ∀ rm : BitVec 3, memText (.basedDisp rm 0x8000#16) = '[' :: baseExpr rm ++ " - 32768]".toList

/-- R219, R220, R222: keywords before memory operands, unsigned decimal immediates, bare register names. -/
def Obligations.OperandTextByKind : Prop :=
  (∀ ea, opText (.mem ea none) = memText ea) ∧
  (∀ ea, opText (.mem ea (some .byte)) = "byte ".toList ++ memText ea) ∧
  (∀ ea, opText (.mem ea (some .word)) = "word ".toList ++ memText ea) ∧
  (∀ v width, opText (.imm v width) = Nat.toDigits 10 v.toNat) ∧
  ∀ key, opText (.reg key) = regName key

/-- R250, R251, R252, R254, R255, and R257, which the spec marks as derived from R250-R256 (no text while IDLE is its
decision D29): no text before start; the directive line alone for no records; each record adds a blank line and its
own line, with the comment when verbose; and that line is `mov dst, src` for the three MOV kinds and the kind's own
text for the four placeholder kinds. -/
def Obligations.TextIsDirectiveThenRecordLines : Prop :=
  (∀ s : State, s.st = .idle → s.text = none) ∧
  (∀ s : State, s.st ≠ .idle → s.out = [] → s.text = some (Config.directive ++ [lf])) ∧
  (∀ (s : State) (rs : List Record) (r : Record), s.st ≠ .idle → s.out = rs ++ [r] →
    ∃ before, ({ s with out := rs } : State).text = some before ∧
      s.text = some (before ++ [lf] ++ (line r ++ if s.cfgVerbose then Config.diagComment r else []) ++ [lf])) ∧
  (∀ s t : State, s.st ≠ .idle → t.st ≠ .idle → s.out = t.out → s.cfgVerbose = t.cfgVerbose → s.text = t.text) ∧
  (∀ (r : Record) (dst src : Operand), r.kind = .movRmReg ∨ r.kind = .movImmRm ∨ r.kind = .movImmReg →
    r.dst = some dst → r.src = some src → line r = "mov ".toList ++ opText dst ++ ", ".toList ++ opText src) ∧
  ∀ (r : Record) (k : Kind), k = .phMemToAcc ∨ k = .phAccToMem ∨ k = .phRmToSreg ∨ k = .phSregToRm → r.kind = k →
    line r = Config.placeholderText k

/-- Directive, record lines and comments hold no line feed, so that each record adds exactly one line (48_emitter.md,
line form; 00_scope.md, parameters). -/
def Obligations.LinesHoldNoLineFeed : Prop :=
  lf ∉ Config.directive ∧ ∀ (verbose : Bool) (r : Record), lf ∉ recordLine verbose r

/-- R259: during a run the text that the host sees is a prefix of the later text and ends at a line boundary. -/
def Obligations.TextGrowsByWholeLines : Prop :=
  ∀ (k : Nat) (s t : State), s.st = .run → decodeRun k s = .next t →
    ∃ early late, s.text = some early ∧ t.text = some late ∧ early <+: late ∧ early.getLast? = some lf ∧
      late.getLast? = some lf

/-- R28: the verbosity bit is 0 after reset, is not written during RUN, and changes no step but for its own value. -/
def Obligations.VerbosityAffectsTextOnly : Prop :=
  State.reset.cfgVerbose = false ∧
  (∀ (s : State) (v : Bool), s.st = .run → hostAct (.writeVerbose v) s = .refused .hostWriteDuringRun) ∧
  (∀ (s : State) (v : Bool), s.st ≠ .run → hostAct (.writeVerbose v) s = .next { s with cfgVerbose := v }) ∧
  ∀ (s t : State) (v : Bool), step s = .next t → step { s with cfgVerbose := v } = .next { t with cfgVerbose := v }

/-- R32: the codes of the record kinds; code 7 is no kind's. -/
def Obligations.RecordKindCodes : Prop :=
  kindCode .movRmReg = 0#3 ∧ kindCode .movImmRm = 1#3 ∧ kindCode .movImmReg = 2#3 ∧ kindCode .phMemToAcc = 3#3 ∧
  kindCode .phAccToMem = 4#3 ∧ kindCode .phRmToSreg = 5#3 ∧ kindCode .phSregToRm = 6#3 ∧
  (∀ k, kindCode k ≠ 7#3) ∧
  ∀ (bs rest : List Byte) (i : Instr) (p : Nat) (r : Record), decode bs = .ok (i, rest) → recordOf i p = some r →
    (bs.head?.bind classify) = some r.kind

/-! ### Invariants and runs -/

/-- The invariant holds of the state after power-on and reset. -/
def Obligations.ResetStateMeetsInvariant : Prop := State.reset.Inv

/-- Every step keeps the invariant: the buffer's canonical form, the cursor within the input, the fault registers'
link to the status, the fields each record has (10_state.md R30's table), and the records' order. -/
def Obligations.StepKeepsInvariant : Prop :=
  ∀ s t : State, s.Inv → step s = .next t → t.Inv

/-- Every host action keeps the invariant. -/
def Obligations.HostActionKeepsInvariant : Prop :=
  ∀ (a : HostAction) (s t : State), s.Inv → hostAct a s = .next t → t.Inv

/-- Positions stay within the buffer's capacity, so the cursor and `fault_pos` fit `CUR_W` bits at all times
(00_scope.md parameters; 10_state.md, cursor). -/
def Obligations.PositionsFitTheirRegisters : Prop :=
  State.reset.fits ∧
  (∀ (e : Event) (s t : State), s.Inv → s.fits → eventStep e s = .next t → t.fits) ∧
  ∀ s : State, s.fits → s.cur < 2 ^ Config.curW ∧ s.faultPos < 2 ^ Config.curW

/-- R36, which the spec marks as derived from R104 and R200: along a run from its start the records' positions rise,
records do not overlap, only unknown bytes lie between two of them, and in DONE the lengths of the records and the
skipped bytes sum to `L`. -/
def Obligations.RecordsAndSkippedBytesCoverInput : Prop :=
  ∀ (k : Nat) (s t : State), s.st = .run → s.cur = 0 → s.out = [] → decodeRun k s = .next t →
    (∀ (n : Nat) (r₁ r₂ : Record), t.out[n]? = some r₁ → t.out[n + 1]? = some r₂ →
      r₁.pos < r₂.pos ∧ r₁.pos + r₁.len ≤ r₂.pos ∧
        ∀ a, r₁.pos + r₁.len ≤ a → a < r₂.pos → classify (s.buf.read a) = none) ∧
    (t.st = .done → (t.out.map (·.len)).sum + skippedBytes k s = s.inputLen)

/-- A run is the linear sweep of its input: for every number of steps, the records, status, fault kind and cursor that
the block's registers hold are those of the sweep over the input's bytes (40_decode_cycle.md). -/
def Obligations.RunIsLinearSweep : Prop :=
  ∀ (k : Nat) (s : State) (input : List Byte), s.st = .run → s.cur = 0 → s.out = [] → s.faultKind = .none →
    s.inputLen = input.length → s.bytesAtCursor input →
    ∃ t, decodeRun k s = .next t ∧
      sweep s.cfgUnknownAbort k 0 input = ⟨t.out, t.st, t.faultKind, t.cur⟩

/-- Bytes at offsets from `L` on are never read: two states that differ in them step alike
(93_implementation_defined.md item 2). -/
def Obligations.BytesBeyondInputAreNeverRead : Prop :=
  ∀ (s t : State) (m : Memory), (∀ a, a < s.inputLen → m.read a = s.buf.read a) → step s = .next t →
    step { s with buf := m } = .next { t with buf := m }

/-- Offsets that the host has not written hold bytes of which nothing is known (assumption log 3): a read there answers
the offset's free value, a step goes on whatever bytes the buffer holds, and it makes no difference whether the host has
written the byte that stands at an offset anyway. -/
def Obligations.UnwrittenBytesHoldFreeValues : Prop :=
  (∀ (m : Memory) (a : Nat), m.lookup a = none → m.read a = Config.unloadedByte a) ∧
  (∀ (s : State) (m : Memory), s.st = .run → s.cur ≤ s.inputLen → ∃ t, step { s with buf := m } = .next t) ∧
  ∀ (s t : State) (a : Nat), s.buf.lookup a = none → step s = .next t →
    step { s with buf := s.buf.write a (Config.unloadedByte a) } =
      .next { t with buf := s.buf.write a (Config.unloadedByte a) }

/-- R271: a step before the end of the input raises TRUNCATED, at the opcode's offset, exactly where `L` lies before the
end of the instruction, whose length its first two bytes give (R75). No byte after those two, and none from `L` on, plays a
part, written or not. -/
def Obligations.TruncatedExactlyWhereInputEndsInside : Prop :=
  (∀ s : State, s.st = .run → s.cur < s.inputLen →
    (step s = .next (s.raise .truncated) ↔ s.inputLen < s.cur + requiredLength (s.buf.readRun s.cur 2))) ∧
  ∀ (s : State) (m : Memory), s.st = .run → s.cur < s.inputLen →
    (∀ a, s.cur ≤ a → a < s.inputLen → a < s.cur + 2 → m.read a = s.buf.read a) →
    step s = .next (s.raise .truncated) →
    step { s with buf := m } = .next { s with buf := m, st := .fault, faultKind := .truncated, faultPos := s.cur }
end

