-- ==== Sys2Proof/Laws/Decode.lean ====
section
/-! SUPPORT. The classifier and the decoder: which bytes each kind has, one lemma for each reading function that says
for which bytes it answers what, and what the decoder as a whole consumes. -/

namespace Sys2Proof

/-! ### The classifier and the fields -/

set_option maxRecDepth 4000 in
/-- The classifier of R73 and the listing of R74 agree on which bytes are unknown. -/
theorem classify_eq_none_iff (op : Byte) : classify op = none ↔ isUnknownByte op = true := by
  revert op; decide

set_option maxRecDepth 4000 in
/-- An opcode byte of `100010dw` is rebuilt from its fields. -/
theorem opcode_of_movRmReg (op : Byte) (h : classify op = some .movRmReg) : op = 0b100010#6 ++ opD op ++ opW op := by
  revert op; decide

set_option maxRecDepth 4000 in
theorem opcode_of_movImmRm (op : Byte) (h : classify op = some .movImmRm) : op = 0b1100011#7 ++ opW op := by
  revert op; decide

set_option maxRecDepth 4000 in
theorem opcode_of_movImmReg (op : Byte) (h : classify op = some .movImmReg) :
    op = 0b1011#4 ++ opRegW op ++ opReg op := by
  revert op; decide

set_option maxRecDepth 4000 in
theorem opcode_of_phMemToAcc (op : Byte) (h : classify op = some .phMemToAcc) : op = 0b1010000#7 ++ opW op := by
  revert op; decide

set_option maxRecDepth 4000 in
theorem opcode_of_phAccToMem (op : Byte) (h : classify op = some .phAccToMem) : op = 0b1010001#7 ++ opW op := by
  revert op; decide

set_option maxRecDepth 4000 in
theorem opcode_of_phRmToSreg (op : Byte) (h : classify op = some .phRmToSreg) : op = 0x8E#8 := by
  revert op; decide

set_option maxRecDepth 4000 in
theorem opcode_of_phSregToRm (op : Byte) (h : classify op = some .phSregToRm) : op = 0x8C#8 := by
  revert op; decide

/-- The opcode of `1011wreg` classifies as such, and its fields read back. -/
theorem movImmReg_opcode_fields (w : BitVec 1) (reg : BitVec 3) :
    classify (0b1011#4 ++ w ++ reg) = some .movImmReg ∧ opRegW (0b1011#4 ++ w ++ reg) = w ∧
      opReg (0b1011#4 ++ w ++ reg) = reg ∧
      BitVec.extractLsb' 0 4 (0b1011#4 ++ w ++ reg : Byte) = w ++ reg := by
  revert w reg; decide

theorem phMemToAcc_opcode_fields (w : BitVec 1) :
    classify (0b1010000#7 ++ w) = some .phMemToAcc ∧ opW (0b1010000#7 ++ w) = w := by
  revert w; decide

theorem phAccToMem_opcode_fields (w : BitVec 1) :
    classify (0b1010001#7 ++ w) = some .phAccToMem ∧ opW (0b1010001#7 ++ w) = w := by
  revert w; decide

set_option maxRecDepth 4000 in
/-- A ModRM byte is rebuilt from its fields. -/
theorem modrmByte_fields (b : Byte) : modrmByte (modrmMod b) (modrmReg b) (modrmRm b) = b := by
  revert b; decide

set_option maxRecDepth 4000 in
/-- The fields of a ModRM byte read back. -/
theorem fields_modrmByte (mod : BitVec 2) (reg rm : BitVec 3) :
    modrmMod (modrmByte mod reg rm) = mod ∧ modrmReg (modrmByte mod reg rm) = reg ∧
      modrmRm (modrmByte mod reg rm) = rm := by
  revert mod reg rm; decide

theorem modBits_modeOfMod (mod : BitVec 2) : (modeOfMod mod).modBits = mod := by
  revert mod; decide

theorem modeOfMod_modBits (mode : Mode) : modeOfMod mode.modBits = mode := by
  cases mode <;> decide

/-! ### Bytes and 16-bit fields -/

/-- R51: the byte at the lower offset is the low byte. -/
theorem halfOfBytes_toNat (lo hi : Byte) : (halfOfBytes lo hi).toNat = lo.toNat + 256 * hi.toNat := by
  have := lo.isLt
  rw [halfOfBytes, BitVec.toNat_append, Nat.shiftLeft_eq, Nat.mul_comm, Nat.add_comm, ← Nat.two_pow_add_eq_or_of_lt this]

theorem lowByte_toNat (h : Half) : (h.extractLsb' 0 8).toNat = h.toNat % 256 := by
  simp

theorem highByte_toNat (h : Half) : (h.extractLsb' 8 8).toNat = h.toNat / 256 := by
  have := h.isLt
  simp only [BitVec.extractLsb'_toNat, Nat.shiftRight_eq_div_pow]
  omega

theorem bytesOfHalf_halfOfBytes (lo hi : Byte) : bytesOfHalf (halfOfBytes lo hi) = [lo, hi] := by
  have h1 := lo.isLt
  have h2 := hi.isLt
  have e1 : (halfOfBytes lo hi).extractLsb' 0 8 = lo :=
    BitVec.eq_of_toNat_eq (by rw [lowByte_toNat, halfOfBytes_toNat]; omega)
  have e2 : (halfOfBytes lo hi).extractLsb' 8 8 = hi :=
    BitVec.eq_of_toNat_eq (by rw [highByte_toNat, halfOfBytes_toNat]; omega)
  simp only [bytesOfHalf, e1, e2]

theorem halfOfBytes_bytesOfHalf (h : Half) : halfOfBytes (h.extractLsb' 0 8) (h.extractLsb' 8 8) = h :=
  BitVec.eq_of_toNat_eq (by rw [halfOfBytes_toNat, lowByte_toNat, highByte_toNat]; omega)

/-! ### The reading functions -/

theorem needByte_ok_iff (bs rest : List Byte) (b : Byte) : needByte bs = .ok (b, rest) ↔ bs = b :: rest := by
  cases bs <;> simp [needByte]

theorem needByte_error_iff (bs : List Byte) (e : DecodeError) :
    needByte bs = .error e ↔ e = .truncated ∧ bs = [] := by
  cases bs <;> simp [needByte, eq_comm]

theorem needHalf_ok_iff (bs rest : List Byte) (h : Half) :
    needHalf bs = .ok (h, rest) ↔ bs = bytesOfHalf h ++ rest := by
  match bs with
  | [] => simp [needHalf, bytesOfHalf]
  | [b] => simp [needHalf, bytesOfHalf]
  | lo :: hi :: bs =>
    constructor
    · intro e
      simp only [needHalf, Except.ok.injEq, Prod.mk.injEq] at e
      rw [← e.1, ← e.2, bytesOfHalf_halfOfBytes]
      rfl
    · intro e
      simp only [bytesOfHalf, List.cons_append, List.nil_append, List.cons.injEq] at e
      simp only [needHalf, e, halfOfBytes_bytesOfHalf]

theorem needHalf_error_iff (bs : List Byte) (e : DecodeError) :
    needHalf bs = .error e ↔ e = .truncated ∧ bs.length < 2 := by
  match bs with
  | [] => simp [needHalf, eq_comm]
  | [_] => simp [needHalf, eq_comm]
  | _ :: _ :: _ => simp [needHalf]

theorem bytesOfHalf_length (h : Half) : (bytesOfHalf h).length = 2 := rfl

/-- The bytes of an r/m operand after its ModRM byte are as many as R75 says. -/
theorem dispBytes_length (m : RmForm) (h : m.wellFormed = true) : m.dispBytes.length = dispLen m.mode m.rm := by
  cases m <;> simp_all [RmForm.dispBytes, RmForm.mode, RmForm.rm, dispLen, bytesOfHalf, RmForm.wellFormed]

/-- The addressing read (R214) answers an operand exactly when its bytes stand at the front. -/
theorem readRmForm_ok_iff (mod : BitVec 2) (rm : BitVec 3) (bs rest : List Byte) (m : RmForm) :
    readRmForm mod rm bs = .ok (m, rest) ↔
      m.wellFormed = true ∧ m.mode = modeOfMod mod ∧ m.rm = rm ∧ bs = m.dispBytes ++ rest := by
  unfold readRmForm
  generalize modeOfMod mod = mode
  cases mode with
  | reg =>
    cases m <;>
      simp [pure, Except.pure, RmForm.mode, RmForm.rm, RmForm.wellFormed, RmForm.dispBytes, eq_comm (a := rm)]
  | mem0 =>
    simp only
    split
    · next h6 =>
      cases hh : needHalf bs with
      | error e =>
        have := (needHalf_error_iff bs e).1 hh
        simp only [bind, Except.bind, reduceCtorEq, false_iff]
        rintro ⟨hw, hm, hr, rfl⟩
        cases m <;> simp_all [RmForm.mode, RmForm.rm, RmForm.wellFormed, RmForm.dispBytes, bytesOfHalf]
      | ok p =>
        obtain ⟨a, bs'⟩ := p
        have hb := (needHalf_ok_iff bs bs' a).1 hh
        simp only [bind, Except.bind, pure, Except.pure, Except.ok.injEq, Prod.mk.injEq]
        constructor
        · rintro ⟨rfl, rfl⟩
          exact ⟨rfl, rfl, h6.symm, hb⟩
        · rintro ⟨hw, hm, hr, e⟩
          cases m with
          | direct a' =>
            have := (needHalf_ok_iff bs rest a').2 e
            rw [hh] at this
            simpa using this
          | based r => simp_all [RmForm.rm, RmForm.wellFormed]
          | _ => simp [RmForm.mode] at hm
    · next h6 =>
      simp only [pure, Except.pure, Except.ok.injEq, Prod.mk.injEq]
      constructor
      · rintro ⟨rfl, rfl⟩
        exact ⟨by simpa [RmForm.wellFormed] using h6, rfl, rfl, rfl⟩
      · rintro ⟨hw, hm, hr, e⟩
        cases m with
        | based r => simp_all [RmForm.rm, RmForm.dispBytes]
        | direct a => exact absurd hr.symm h6
        | _ => simp [RmForm.mode] at hm
  | mem8 =>
    cases bs with
    | nil =>
      cases m <;> simp [needByte, bind, Except.bind, RmForm.mode, RmForm.dispBytes]
    | cons b bs =>
      cases m <;>
        simp [needByte, bind, Except.bind, pure, Except.pure, RmForm.mode, RmForm.dispBytes, RmForm.rm,
          RmForm.wellFormed, eq_comm (a := rm), and_assoc]
  | mem16 =>
    cases hh : needHalf bs with
    | error e =>
      have := (needHalf_error_iff bs e).1 hh
      simp only [bind, Except.bind, reduceCtorEq, false_iff]
      rintro ⟨hw, hm, hr, rfl⟩
      cases m <;> simp_all [RmForm.mode, RmForm.dispBytes, bytesOfHalf]
    | ok p =>
      obtain ⟨a, bs'⟩ := p
      have hb := (needHalf_ok_iff bs bs' a).1 hh
      simp only [bind, Except.bind, pure, Except.pure, Except.ok.injEq, Prod.mk.injEq]
      constructor
      · rintro ⟨rfl, rfl⟩
        exact ⟨rfl, rfl, rfl, hb⟩
      · rintro ⟨hw, hm, hr, e⟩
        cases m with
        | based16 r a' =>
          have := (needHalf_ok_iff bs rest a').2 e
          rw [hh] at this
          simp only [RmForm.rm] at hr
          simp_all
        | _ => simp [RmForm.mode] at hm

/-- The addressing read fails exactly when fewer bytes are left than R75 asks for. -/
theorem readRmForm_error_iff (mod : BitVec 2) (rm : BitVec 3) (bs : List Byte) (e : DecodeError) :
    readRmForm mod rm bs = .error e ↔ e = .truncated ∧ bs.length < dispLen (modeOfMod mod) rm := by
  unfold readRmForm
  generalize modeOfMod mod = mode
  have hhalf : ∀ f : Half → RmForm,
      (do let (a, bs) ← needHalf bs; return (f a, bs) : Except DecodeError (RmForm × List Byte)) = .error e ↔
        e = .truncated ∧ bs.length < 2 := by
    intro f
    rw [← needHalf_error_iff]
    cases needHalf bs <;> simp [bind, Except.bind, pure, Except.pure]
  cases mode with
  | reg => simp [pure, Except.pure, dispLen]
  | mem0 =>
    by_cases h6 : rm = 0b110#3
    · simpa [h6, dispLen] using hhalf .direct
    · simp [h6, dispLen, pure, Except.pure]
  | mem8 => cases bs <;> simp [needByte, bind, Except.bind, pure, Except.pure, dispLen, eq_comm]
  | mem16 => simpa [dispLen] using hhalf (.based16 rm)

theorem widthBit_cases (w : BitVec 1) : w = 0#1 ∨ w = 1#1 := by
  revert w; decide

/-- The data read of width `w` answers a value exactly when its bytes stand at the front; one byte gives a value below
256. -/
theorem needImm_ok_iff (w : BitVec 1) (bs rest : List Byte) (v : Half) :
    needImm w bs = .ok (v, rest) ↔ (w = 1#1 ∨ v.toNat < 256) ∧ bs = immBytes w v ++ rest := by
  rcases widthBit_cases w with rfl | rfl
  · rw [needImm, if_pos rfl, immBytes, if_pos rfl]
    cases bs with
    | nil => simp [needByte, bind, Except.bind]
    | cons b bs =>
      simp only [needByte, bind, Except.bind, pure, Except.pure, Except.ok.injEq, Prod.mk.injEq, List.cons_append,
        List.nil_append, List.cons.injEq]
      constructor
      · rintro ⟨rfl, rfl⟩
        refine ⟨.inr ?_, ?_, rfl⟩
        · have := b.isLt
          simp only [BitVec.toNat_setWidth]
          omega
        · exact BitVec.eq_of_toNat_eq (by have := b.isLt; simp only [BitVec.toNat_setWidth]; omega)
      · rintro ⟨hv, rfl, rfl⟩
        refine ⟨BitVec.eq_of_toNat_eq ?_, rfl⟩
        have hv : v.toNat < 256 := hv.resolve_left (by decide)
        simp only [BitVec.toNat_setWidth]
        omega
  · rw [needImm, if_neg (by decide), needHalf_ok_iff, immBytes, if_neg (by decide)]
    simp

theorem needImm_error_iff (w : BitVec 1) (bs : List Byte) (e : DecodeError) :
    needImm w bs = .error e ↔ e = .truncated ∧ bs.length < immLen w := by
  rcases widthBit_cases w with rfl | rfl
  · rw [needImm, if_pos rfl]
    cases bs <;> simp [needByte, bind, Except.bind, pure, Except.pure, immLen, eq_comm]
  · rw [needImm, if_neg (by decide), needHalf_error_iff]
    rfl

theorem immBytes_length (w : BitVec 1) (v : Half) : (immBytes w v).length = immLen w := by
  rcases widthBit_cases w with rfl | rfl <;> rfl

/-- `ReadRM` after the ModRM read, the part that 88-8B and C6-C7 share: it answers an operand and its reg field exactly
when their bytes stand at the front. -/
theorem modrm_ok_iff (bs rest : List Byte) (reg : BitVec 3) (m : RmForm) :
    (∃ b bs', needByte bs = .ok (b, bs') ∧ readRmForm (modrmMod b) (modrmRm b) bs' = .ok (m, rest) ∧
      modrmReg b = reg) ↔ m.wellFormed = true ∧ bs = rmBytes reg m ++ rest := by
  constructor
  · rintro ⟨b, bs', hb, hm, rfl⟩
    obtain ⟨hw, hmode, hrm, rfl⟩ := (readRmForm_ok_iff _ _ _ _ _).1 hm
    refine ⟨hw, ?_⟩
    rw [(needByte_ok_iff _ _ _).1 hb, rmBytes, hmode, hrm, modBits_modeOfMod, modrmByte_fields]
    rfl
  · rintro ⟨hw, rfl⟩
    obtain ⟨h1, h2, h3⟩ := fields_modrmByte m.mode.modBits reg m.rm
    refine ⟨modrmByte m.mode.modBits reg m.rm, m.dispBytes ++ rest, rfl, ?_, h2⟩
    rw [readRmForm_ok_iff, h1, h3, modeOfMod_modBits]
    exact ⟨hw, rfl, rfl, rfl⟩

/-- 88-8B: what the reads of `DecodeRmReg` answer. -/
theorem decodeRmReg_ok_iff (op : Byte) (bs rest : List Byte) (i : Instr) :
    decodeRmReg op bs = .ok (i, rest) ↔
      ∃ reg m, m.wellFormed = true ∧ i = rmRegInstr (opD op) (opW op) reg m ∧ bs = rmBytes reg m ++ rest := by
  constructor
  · intro h
    cases hb : needByte bs with
    | error e => simp [decodeRmReg, hb, bind, Except.bind] at h
    | ok p =>
      obtain ⟨b, bs'⟩ := p
      cases hm : readRmForm (modrmMod b) (modrmRm b) bs' with
      | error e => simp [decodeRmReg, hb, hm, bind, Except.bind] at h
      | ok q =>
        obtain ⟨m, rest'⟩ := q
        simp only [decodeRmReg, hb, hm, bind, Except.bind, pure, Except.pure, Except.ok.injEq, Prod.mk.injEq] at h
        obtain ⟨rfl, rfl⟩ := h
        obtain ⟨hw, e⟩ := (modrm_ok_iff bs rest' (modrmReg b) m).1 ⟨b, bs', hb, hm, rfl⟩
        exact ⟨modrmReg b, m, hw, rfl, e⟩
  · rintro ⟨reg, m, hw, rfl, e⟩
    obtain ⟨b, bs', hb, hm, rfl⟩ := (modrm_ok_iff bs rest reg m).2 ⟨hw, e⟩
    simp [decodeRmReg, hb, hm, bind, Except.bind, pure, Except.pure]

/-- C6: what the reads of `DecodeImmRm` answer with `w = 0`. -/
theorem decodeImmRm_byte_ok_iff (op : Byte) (hop : opW op = 0#1) (bs rest : List Byte) (i : Instr) :
    decodeImmRm op bs = .ok (i, rest) ↔
      ∃ ign m imm, m.wellFormed = true ∧ i = .movRm8Imm8 ign m imm ∧ bs = rmBytes ign m ++ imm :: rest := by
  constructor
  · intro h
    cases hb : needByte bs with
    | error e => simp [decodeImmRm, hb, bind, Except.bind] at h
    | ok p =>
      obtain ⟨b, bs'⟩ := p
      cases hm : readRmForm (modrmMod b) (modrmRm b) bs' with
      | error e => simp [decodeImmRm, hb, hm, bind, Except.bind] at h
      | ok q =>
        obtain ⟨m, data⟩ := q
        cases hi : needByte data with
        | error e => simp [decodeImmRm, hb, hm, hop, hi, bind, Except.bind] at h
        | ok r =>
          obtain ⟨imm, rest'⟩ := r
          simp only [decodeImmRm, hb, hm, hop, hi, bind, Except.bind, pure, Except.pure, if_pos, Except.ok.injEq,
            Prod.mk.injEq] at h
          obtain ⟨rfl, rfl⟩ := h
          obtain ⟨hw, e⟩ := (modrm_ok_iff bs data (modrmReg b) m).1 ⟨b, bs', hb, hm, rfl⟩
          exact ⟨modrmReg b, m, imm, hw, rfl, (needByte_ok_iff _ _ _).1 hi ▸ e⟩
  · rintro ⟨ign, m, imm, hw, rfl, e⟩
    obtain ⟨b, bs', hb, hm, rfl⟩ := (modrm_ok_iff bs (imm :: rest) ign m).2 ⟨hw, e⟩
    have hi := (needByte_ok_iff (imm :: rest) rest imm).2 rfl
    simp [decodeImmRm, hb, hm, hop, hi, bind, Except.bind, pure, Except.pure]

/-- C7: what the reads of `DecodeImmRm` answer with `w = 1`. -/
theorem decodeImmRm_word_ok_iff (op : Byte) (hop : opW op = 1#1) (bs rest : List Byte) (i : Instr) :
    decodeImmRm op bs = .ok (i, rest) ↔
      ∃ ign m imm, m.wellFormed = true ∧ i = .movRm16Imm16 ign m imm ∧
        bs = rmBytes ign m ++ (bytesOfHalf imm ++ rest) := by
  have hne : ¬ opW op = 0#1 := by rw [hop]; decide
  constructor
  · intro h
    cases hb : needByte bs with
    | error e => simp [decodeImmRm, hb, bind, Except.bind] at h
    | ok p =>
      obtain ⟨b, bs'⟩ := p
      cases hm : readRmForm (modrmMod b) (modrmRm b) bs' with
      | error e => simp [decodeImmRm, hb, hm, bind, Except.bind] at h
      | ok q =>
        obtain ⟨m, data⟩ := q
        cases hi : needHalf data with
        | error e => simp [decodeImmRm, hb, hm, hne, hi, bind, Except.bind] at h
        | ok r =>
          obtain ⟨imm, rest'⟩ := r
          simp only [decodeImmRm, hb, hm, if_neg hne, hi, bind, Except.bind, pure, Except.pure, Except.ok.injEq,
            Prod.mk.injEq] at h
          obtain ⟨rfl, rfl⟩ := h
          obtain ⟨hw, e⟩ := (modrm_ok_iff bs data (modrmReg b) m).1 ⟨b, bs', hb, hm, rfl⟩
          exact ⟨modrmReg b, m, imm, hw, rfl, (needHalf_ok_iff _ _ _).1 hi ▸ e⟩
  · rintro ⟨ign, m, imm, hw, rfl, e⟩
    obtain ⟨b, bs', hb, hm, rfl⟩ := (modrm_ok_iff bs (bytesOfHalf imm ++ rest) ign m).2 ⟨hw, e⟩
    have hi := (needHalf_ok_iff (bytesOfHalf imm ++ rest) rest imm).2 rfl
    simp [decodeImmRm, hb, hm, hne, hi, bind, Except.bind, pure, Except.pure]

/-- B0-BF: what the read of `DecodeImmReg` answers. -/
theorem decodeImmReg_ok_iff (op : Byte) (bs rest : List Byte) (i : Instr) :
    decodeImmReg op bs = .ok (i, rest) ↔
      ∃ imm, (opRegW op = 1#1 ∨ imm.toNat < 256) ∧ i = .movRImm (opRegW op) (opReg op) imm ∧
        bs = immBytes (opRegW op) imm ++ rest := by
  cases hi : needImm (opRegW op) bs with
  | error e =>
    have := (needImm_error_iff _ _ _).1 hi
    simp only [decodeImmReg, hi, bind, Except.bind, reduceCtorEq, false_iff]
    rintro ⟨imm, -, -, e⟩
    have hl := congrArg List.length e
    rw [List.length_append, immBytes_length] at hl
    omega
  | ok p =>
    obtain ⟨imm, rest'⟩ := p
    simp only [decodeImmReg, hi, bind, Except.bind, pure, Except.pure, Except.ok.injEq, Prod.mk.injEq]
    constructor
    · rintro ⟨rfl, rfl⟩
      obtain ⟨h, e⟩ := (needImm_ok_iff _ _ _ _).1 hi
      exact ⟨imm, h, rfl, e⟩
    · rintro ⟨imm', h, rfl, e⟩
      have := (needImm_ok_iff _ _ _ _).2 ⟨h, e⟩
      rw [hi] at this
      simp_all

/-! ### The decoder as a whole -/

theorem rmBytes_length (reg : BitVec 3) (m : RmForm) (h : m.wellFormed = true) :
    (rmBytes reg m).length = 1 + dispLen m.mode m.rm := by
  rw [rmBytes, List.length_cons, dispBytes_length m h, Nat.add_comm]

/-- The decoder on a recognised or unknown opcode, by its kind: one lemma to take a decode apart. -/
theorem decode_cons (op : Byte) (bs : List Byte) :
    decode (op :: bs) =
      match classify op with
      | some .movRmReg => decodeRmReg op bs
      | some .movImmRm => decodeImmRm op bs
      | some .movImmReg => decodeImmReg op bs
      | some .phMemToAcc => .ok (.phMemToAcc (opW op), bs)
      | some .phAccToMem => .ok (.phAccToMem (opW op), bs)
      | some .phRmToSreg => .ok (.phRmToSreg, bs)
      | some .phSregToRm => .ok (.phSregToRm, bs)
      | none => .ok (.unknownOpcode op, bs) := rfl

/-- The decoder takes the instruction's own bytes from the front and leaves the rest. -/
theorem decode_length {bs rest : List Byte} {i : Instr} (h : decode bs = .ok (i, rest)) :
    bs.length = i.length + rest.length := by
  cases bs with
  | nil => simp [decode] at h
  | cons op bs =>
    rw [decode_cons] at h
    split at h
    · obtain ⟨reg, m, hw, rfl, rfl⟩ := (decodeRmReg_ok_iff _ _ _ _).1 h
      have hl := rmBytes_length reg m hw
      simp only [List.length_cons, List.length_append, hl]
      unfold rmRegInstr
      split <;> split <;> simp only [Instr.length] <;> omega
    · rcases widthBit_cases (opW op) with hop | hop
      · obtain ⟨ign, m, imm, hw, rfl, rfl⟩ := (decodeImmRm_byte_ok_iff _ hop _ _ _).1 h
        have hl := rmBytes_length ign m hw
        simp only [List.length_cons, List.length_append, hl, Instr.length, immLen, BitVec.toNat_ofNat]
        omega
      · obtain ⟨ign, m, imm, hw, rfl, rfl⟩ := (decodeImmRm_word_ok_iff _ hop _ _ _).1 h
        have hl := rmBytes_length ign m hw
        simp only [List.length_cons, List.length_append, hl, Instr.length, immLen, BitVec.toNat_ofNat,
          bytesOfHalf_length]
        omega
    · obtain ⟨imm, -, rfl, rfl⟩ := (decodeImmReg_ok_iff _ _ _ _).1 h
      simp only [List.length_cons, List.length_append, Instr.length, immBytes_length]
      omega
    all_goals
      simp only [Except.ok.injEq, Prod.mk.injEq] at h
      obtain ⟨rfl, rfl⟩ := h
      simp only [List.length_cons, Instr.length]
      omega

/-- Bytes after the instruction change nothing. -/
theorem decode_append {bs rest : List Byte} {i : Instr} (h : decode bs = .ok (i, rest)) (more : List Byte) :
    decode (bs ++ more) = .ok (i, rest ++ more) := by
  cases bs with
  | nil => simp [decode] at h
  | cons op bs =>
    rw [List.cons_append, decode_cons]
    rw [decode_cons] at h
    split at h
    · rw [decodeRmReg_ok_iff] at h ⊢
      obtain ⟨reg, m, hw, hi, rfl⟩ := h
      exact ⟨reg, m, hw, hi, List.append_assoc _ _ _⟩
    · rcases widthBit_cases (opW op) with hop | hop
      · rw [decodeImmRm_byte_ok_iff _ hop] at h ⊢
        obtain ⟨ign, m, imm, hw, hi, rfl⟩ := h
        exact ⟨ign, m, imm, hw, hi, List.append_assoc _ _ _⟩
      · rw [decodeImmRm_word_ok_iff _ hop] at h ⊢
        obtain ⟨ign, m, imm, hw, hi, rfl⟩ := h
        exact ⟨ign, m, imm, hw, hi, by simp only [List.append_assoc]⟩
    · rw [decodeImmReg_ok_iff] at h ⊢
      obtain ⟨imm, hv, hi, rfl⟩ := h
      exact ⟨imm, hv, hi, List.append_assoc _ _ _⟩
    all_goals
      simp only [Except.ok.injEq, Prod.mk.injEq] at h ⊢
      exact ⟨h.1, by rw [h.2]⟩

/-- The instruction's own bytes decode to it. -/
theorem decode_front {bs rest : List Byte} {i : Instr} (h : decode bs = .ok (i, rest)) :
    ∃ front, bs = front ++ rest ∧ decode front = .ok (i, []) := by
  cases bs with
  | nil => simp [decode] at h
  | cons op bs =>
    suffices ∃ tail, bs = tail ++ rest ∧ decode (op :: tail) = .ok (i, []) by
      obtain ⟨tail, rfl, ht⟩ := this
      exact ⟨op :: tail, rfl, ht⟩
    simp only [decode_cons] at h ⊢
    split at h
    · obtain ⟨reg, m, hw, hi, rfl⟩ := (decodeRmReg_ok_iff _ _ _ _).1 h
      exact ⟨rmBytes reg m, rfl, (decodeRmReg_ok_iff _ _ _ _).2 ⟨reg, m, hw, hi, (List.append_nil _).symm⟩⟩
    · rcases widthBit_cases (opW op) with hop | hop
      · obtain ⟨ign, m, imm, hw, hi, rfl⟩ := (decodeImmRm_byte_ok_iff _ hop _ _ _).1 h
        exact ⟨rmBytes ign m ++ [imm], by simp,
          (decodeImmRm_byte_ok_iff _ hop _ _ _).2 ⟨ign, m, imm, hw, hi, rfl⟩⟩
      · obtain ⟨ign, m, imm, hw, hi, rfl⟩ := (decodeImmRm_word_ok_iff _ hop _ _ _).1 h
        exact ⟨rmBytes ign m ++ bytesOfHalf imm, by simp,
          (decodeImmRm_word_ok_iff _ hop _ _ _).2 ⟨ign, m, imm, hw, hi, by simp⟩⟩
    · obtain ⟨imm, hv, hi, rfl⟩ := (decodeImmReg_ok_iff _ _ _ _).1 h
      exact ⟨_, rfl, (decodeImmReg_ok_iff _ _ _ _).2 ⟨imm, hv, hi, (List.append_nil _).symm⟩⟩
    all_goals
      simp only [Except.ok.injEq, Prod.mk.injEq] at h
      exact ⟨[], by simp [h.2], by simp [h.1]⟩

/-- The r/m reads fail exactly on too few bytes, the missing ModRM byte being the first of them. -/
theorem decodeRmReg_error_iff (op : Byte) (bs : List Byte) (e : DecodeError) :
    decodeRmReg op bs = .error e ↔ e = .truncated ∧
      bs.length < 1 + (bs.head?.map fun m => dispLen (modeOfMod (modrmMod m)) (modrmRm m)).getD 0 := by
  cases bs with
  | nil => simp [decodeRmReg, needByte, bind, Except.bind, eq_comm]
  | cons b bs =>
    have h : decodeRmReg op (b :: bs) = .error e ↔ readRmForm (modrmMod b) (modrmRm b) bs = .error e := by
      cases hm : readRmForm (modrmMod b) (modrmRm b) bs <;>
        simp [decodeRmReg, needByte, hm, bind, Except.bind, pure, Except.pure]
    rw [h, readRmForm_error_iff]
    simp only [List.length_cons, List.head?_cons, Option.map_some, Option.getD_some]
    rw [show bs.length + 1 < 1 + dispLen (modeOfMod (modrmMod b)) (modrmRm b) ↔
      bs.length < dispLen (modeOfMod (modrmMod b)) (modrmRm b) by omega]

theorem decodeImmRm_error_iff (op : Byte) (bs : List Byte) (e : DecodeError) :
    decodeImmRm op bs = .error e ↔ e = .truncated ∧
      bs.length < 1 + (bs.head?.map fun m => dispLen (modeOfMod (modrmMod m)) (modrmRm m)).getD 0 + immLen (opW op) := by
  cases bs with
  | nil => simp [decodeImmRm, needByte, bind, Except.bind, immLen, eq_comm]
  | cons b bs =>
    simp only [List.length_cons, List.head?_cons, Option.map_some, Option.getD_some]
    cases hm : readRmForm (modrmMod b) (modrmRm b) bs with
    | error e' =>
      obtain ⟨rfl, hl⟩ := (readRmForm_error_iff _ _ _ _).1 hm
      simp only [decodeImmRm, needByte, hm, bind, Except.bind, Except.error.injEq, eq_comm (a := DecodeError.truncated)]
      exact ⟨fun h => ⟨h, by omega⟩, fun h => h.1⟩
    | ok p =>
      obtain ⟨m, data⟩ := p
      obtain ⟨hw, hmode, hrm, rfl⟩ := (readRmForm_ok_iff _ _ _ _ _).1 hm
      have hl := dispBytes_length m hw
      rw [hmode, hrm] at hl
      rw [List.length_append, hl]
      rcases widthBit_cases (opW op) with hop | hop
      · have h : decodeImmRm op (b :: (m.dispBytes ++ data)) = .error e ↔ needByte data = .error e := by
          have hb : needByte (b :: (m.dispBytes ++ data)) = .ok (b, m.dispBytes ++ data) := rfl
          cases hd : needByte data <;> simp [decodeImmRm, hb, hm, hd, hop, bind, Except.bind, pure, Except.pure]
        rw [h, needByte_error_iff, hop, ← List.length_eq_zero_iff]
        simp only [immLen, BitVec.toNat_ofNat]
        refine and_congr_right fun _ => ?_
        omega
      · have hne : ¬ opW op = 0#1 := by rw [hop]; decide
        have h : decodeImmRm op (b :: (m.dispBytes ++ data)) = .error e ↔ needHalf data = .error e := by
          cases hd : needHalf data <;> simp [decodeImmRm, needByte, hm, hd, hne, bind, Except.bind, pure, Except.pure]
        rw [h, needHalf_error_iff, hop]
        simp only [immLen, BitVec.toNat_ofNat]
        refine and_congr_right fun _ => ?_
        omega

theorem decodeImmReg_error_iff (op : Byte) (bs : List Byte) (e : DecodeError) :
    decodeImmReg op bs = .error e ↔ e = .truncated ∧ bs.length < immLen (opRegW op) := by
  rw [← needImm_error_iff]
  cases hi : needImm (opRegW op) bs <;> simp [decodeImmReg, hi, bind, Except.bind, pure, Except.pure]

/-- No instruction needs more than six bytes (R80). -/
theorem requiredLength_le (bs : List Byte) : requiredLength bs ≤ maxInstrLen := by
  have hd : ∀ mode rm, dispLen mode rm ≤ 2 := by intro mode; cases mode <;> decide
  have hi : ∀ w, immLen w ≤ 2 := by decide
  have ho : ∀ o : Option Byte, (o.map fun m => dispLen (modeOfMod (modrmMod m)) (modrmRm m)).getD 0 ≤ 2 := by
    intro o
    cases o <;> simp [hd]
  unfold requiredLength maxInstrLen
  cases bs with
  | nil => decide
  | cons op bs =>
    have h1 := ho bs.head?
    have h2 := hi (opW op)
    have h3 := hi (opRegW op)
    simp only
    split <;> omega

/-- A decode that fails for want of bytes had fewer than the longest instruction has. -/
theorem decode_error_short {bs : List Byte} {e : DecodeError} (h : decode bs = .error e) :
    bs.length < maxInstrLen := by
  cases bs with
  | nil => decide
  | cons op bs =>
    have hr := requiredLength_le (op :: bs)
    rw [decode_cons] at h
    unfold requiredLength at hr
    simp only [List.length_cons]
    split at h
    · next hk =>
      have := ((decodeRmReg_error_iff _ _ _).1 h).2
      simp only [hk] at hr
      omega
    · next hk =>
      have := ((decodeImmRm_error_iff _ _ _).1 h).2
      simp only [hk] at hr
      omega
    · next hk =>
      have := ((decodeImmReg_error_iff _ _ _).1 h).2
      simp only [hk] at hr
      omega
    all_goals simp at h

/-- On a nonempty list the one reason to fail is truncation, and a kind that reads more bytes is recognised. -/
theorem decode_error_kind {op : Byte} {bs : List Byte} {e : DecodeError} (h : decode (op :: bs) = .error e) :
    e = .truncated ∧
      (classify op = some .movRmReg ∨ classify op = some .movImmRm ∨ classify op = some .movImmReg) := by
  rw [decode_cons] at h
  split at h
  · next hk => exact ⟨((decodeRmReg_error_iff _ _ _).1 h).1, .inl hk⟩
  · next hk => exact ⟨((decodeImmRm_error_iff _ _ _).1 h).1, .inr (.inl hk)⟩
  · next hk => exact ⟨((decodeImmReg_error_iff _ _ _).1 h).1, .inr (.inr hk)⟩
  all_goals simp at h

/-- Decoding answers well-formed instructions only. -/
theorem decode_wellFormed {bs rest : List Byte} {i : Instr} (h : decode bs = .ok (i, rest)) :
    i.wellFormed = true := by
  cases bs with
  | nil => simp [decode] at h
  | cons op bs =>
    rw [decode_cons] at h
    split at h
    · obtain ⟨reg, m, hw, rfl, -⟩ := (decodeRmReg_ok_iff _ _ _ _).1 h
      unfold rmRegInstr
      split <;> split <;> exact hw
    · rcases widthBit_cases (opW op) with hop | hop
      · obtain ⟨ign, m, imm, hw, rfl, -⟩ := (decodeImmRm_byte_ok_iff _ hop _ _ _).1 h
        exact hw
      · obtain ⟨ign, m, imm, hw, rfl, -⟩ := (decodeImmRm_word_ok_iff _ hop _ _ _).1 h
        exact hw
    · obtain ⟨imm, hv, rfl, -⟩ := (decodeImmReg_ok_iff _ _ _ _).1 h
      simpa [Instr.wellFormed] using hv
    · simp only [Except.ok.injEq, Prod.mk.injEq] at h; rw [← h.1]; rfl
    · simp only [Except.ok.injEq, Prod.mk.injEq] at h; rw [← h.1]; rfl
    · simp only [Except.ok.injEq, Prod.mk.injEq] at h; rw [← h.1]; rfl
    · simp only [Except.ok.injEq, Prod.mk.injEq] at h; rw [← h.1]; rfl
    · next hk =>
      simp only [Except.ok.injEq, Prod.mk.injEq] at h
      rw [← h.1]
      exact (classify_eq_none_iff op).1 hk

/-- The decoder answers an unknown opcode only for the byte it names, and only where no row matches it. -/
theorem decode_unknown {op b : Byte} {bs rest : List Byte} (h : decode (b :: bs) = .ok (.unknownOpcode op, rest)) :
    op = b ∧ classify b = none ∧ rest = bs := by
  rw [decode_cons] at h
  split at h
  · obtain ⟨reg, m, -, hi, -⟩ := (decodeRmReg_ok_iff _ _ _ _).1 h
    unfold rmRegInstr at hi
    split at hi <;> split at hi <;> simp at hi
  · rcases widthBit_cases (opW b) with hop | hop
    · obtain ⟨ign, m, imm, -, hi, -⟩ := (decodeImmRm_byte_ok_iff _ hop _ _ _).1 h
      simp at hi
    · obtain ⟨ign, m, imm, -, hi, -⟩ := (decodeImmRm_word_ok_iff _ hop _ _ _).1 h
      simp at hi
  · obtain ⟨imm, -, hi, -⟩ := (decodeImmReg_ok_iff _ _ _ _).1 h
    simp at hi
  · simp at h
  · simp at h
  · simp at h
  · simp at h
  · next hk =>
    simp only [Except.ok.injEq, Prod.mk.injEq, Instr.unknownOpcode.injEq] at h
    exact ⟨h.1.symm, hk, h.2.symm⟩

theorem length_pos (i : Instr) : 1 ≤ i.length := by
  cases i <;> simp only [Instr.length] <;> omega

theorem length_le (i : Instr) : i.length ≤ maxInstrLen := by
  have hd : ∀ mode rm, dispLen mode rm ≤ 2 := by intro mode; cases mode <;> decide
  have h0 : immLen 0#1 = 1 := rfl
  have h1 : immLen 1#1 = 2 := rfl
  have hi : ∀ w, immLen w ≤ 2 := by decide
  unfold maxInstrLen
  cases i with
  | movRm8R8 m _ => have := hd m.mode m.rm; simp only [Instr.length]; omega
  | movRm16R16 m _ => have := hd m.mode m.rm; simp only [Instr.length]; omega
  | movR8Rm8 _ m => have := hd m.mode m.rm; simp only [Instr.length]; omega
  | movR16Rm16 _ m => have := hd m.mode m.rm; simp only [Instr.length]; omega
  | movRm8Imm8 _ m _ => have := hd m.mode m.rm; simp only [Instr.length]; omega
  | movRm16Imm16 _ m _ => have := hd m.mode m.rm; simp only [Instr.length]; omega
  | movRImm w _ _ => have := hi w; simp only [Instr.length]; omega
  | phMemToAcc _ => simp [Instr.length]
  | phAccToMem _ => simp [Instr.length]
  | phRmToSreg => simp [Instr.length]
  | phSregToRm => simp [Instr.length]
  | unknownOpcode _ => simp [Instr.length]

end Sys2Proof
end

