-- ==== Sys2Proof/Laws/State.lean ====
section
/-! SUPPORT. One lemma per field of the state and per update of it, so that no proof unfolds a record update. -/

namespace Sys2Proof.Machine

/-! ### `State.emit` -/

@[simp] theorem State.emit_buf (s : State) (r : Record) : (s.emit r).buf = s.buf := rfl
@[simp] theorem State.emit_inputLen (s : State) (r : Record) : (s.emit r).inputLen = s.inputLen := rfl
@[simp] theorem State.emit_cur (s : State) (r : Record) : (s.emit r).cur = s.cur := rfl
@[simp] theorem State.emit_st (s : State) (r : Record) : (s.emit r).st = s.st := rfl
@[simp] theorem State.emit_faultKind (s : State) (r : Record) : (s.emit r).faultKind = s.faultKind := rfl
@[simp] theorem State.emit_faultPos (s : State) (r : Record) : (s.emit r).faultPos = s.faultPos := rfl
@[simp] theorem State.emit_cfgUnknownAbort (s : State) (r : Record) : (s.emit r).cfgUnknownAbort = s.cfgUnknownAbort := rfl
@[simp] theorem State.emit_cfgVerbose (s : State) (r : Record) : (s.emit r).cfgVerbose = s.cfgVerbose := rfl
@[simp] theorem State.emit_out (s : State) (r : Record) : (s.emit r).out = s.out ++ [r] := rfl

/-! ### `State.setCur` -/

@[simp] theorem State.setCur_buf (s : State) (v : Nat) : (s.setCur v).buf = s.buf := rfl
@[simp] theorem State.setCur_inputLen (s : State) (v : Nat) : (s.setCur v).inputLen = s.inputLen := rfl
@[simp] theorem State.setCur_cur (s : State) (v : Nat) : (s.setCur v).cur = v := rfl
@[simp] theorem State.setCur_st (s : State) (v : Nat) : (s.setCur v).st = s.st := rfl
@[simp] theorem State.setCur_faultKind (s : State) (v : Nat) : (s.setCur v).faultKind = s.faultKind := rfl
@[simp] theorem State.setCur_faultPos (s : State) (v : Nat) : (s.setCur v).faultPos = s.faultPos := rfl
@[simp] theorem State.setCur_cfgUnknownAbort (s : State) (v : Nat) : (s.setCur v).cfgUnknownAbort = s.cfgUnknownAbort := rfl
@[simp] theorem State.setCur_cfgVerbose (s : State) (v : Nat) : (s.setCur v).cfgVerbose = s.cfgVerbose := rfl
@[simp] theorem State.setCur_out (s : State) (v : Nat) : (s.setCur v).out = s.out := rfl

/-! ### `State.setSt` -/

@[simp] theorem State.setSt_buf (s : State) (v : Status) : (s.setSt v).buf = s.buf := rfl
@[simp] theorem State.setSt_inputLen (s : State) (v : Status) : (s.setSt v).inputLen = s.inputLen := rfl
@[simp] theorem State.setSt_cur (s : State) (v : Status) : (s.setSt v).cur = s.cur := rfl
@[simp] theorem State.setSt_st (s : State) (v : Status) : (s.setSt v).st = v := rfl
@[simp] theorem State.setSt_faultKind (s : State) (v : Status) : (s.setSt v).faultKind = s.faultKind := rfl
@[simp] theorem State.setSt_faultPos (s : State) (v : Status) : (s.setSt v).faultPos = s.faultPos := rfl
@[simp] theorem State.setSt_cfgUnknownAbort (s : State) (v : Status) : (s.setSt v).cfgUnknownAbort = s.cfgUnknownAbort := rfl
@[simp] theorem State.setSt_cfgVerbose (s : State) (v : Status) : (s.setSt v).cfgVerbose = s.cfgVerbose := rfl
@[simp] theorem State.setSt_out (s : State) (v : Status) : (s.setSt v).out = s.out := rfl

/-! ### `State.commit` -/

@[simp] theorem State.commit_buf (s : State) (r : Record) : (s.commit r).buf = s.buf := rfl
@[simp] theorem State.commit_inputLen (s : State) (r : Record) : (s.commit r).inputLen = s.inputLen := rfl
@[simp] theorem State.commit_cur (s : State) (r : Record) : (s.commit r).cur = s.cur + r.len := rfl
@[simp] theorem State.commit_st (s : State) (r : Record) : (s.commit r).st = s.st := rfl
@[simp] theorem State.commit_faultKind (s : State) (r : Record) : (s.commit r).faultKind = s.faultKind := rfl
@[simp] theorem State.commit_faultPos (s : State) (r : Record) : (s.commit r).faultPos = s.faultPos := rfl
@[simp] theorem State.commit_cfgUnknownAbort (s : State) (r : Record) : (s.commit r).cfgUnknownAbort = s.cfgUnknownAbort := rfl
@[simp] theorem State.commit_cfgVerbose (s : State) (r : Record) : (s.commit r).cfgVerbose = s.cfgVerbose := rfl
@[simp] theorem State.commit_out (s : State) (r : Record) : (s.commit r).out = s.out ++ [r] := rfl

/-! ### `State.skip` -/

@[simp] theorem State.skip_buf (s : State) : (s.skip).buf = s.buf := rfl
@[simp] theorem State.skip_inputLen (s : State) : (s.skip).inputLen = s.inputLen := rfl
@[simp] theorem State.skip_cur (s : State) : (s.skip).cur = s.cur + 1 := rfl
@[simp] theorem State.skip_st (s : State) : (s.skip).st = s.st := rfl
@[simp] theorem State.skip_faultKind (s : State) : (s.skip).faultKind = s.faultKind := rfl
@[simp] theorem State.skip_faultPos (s : State) : (s.skip).faultPos = s.faultPos := rfl
@[simp] theorem State.skip_cfgUnknownAbort (s : State) : (s.skip).cfgUnknownAbort = s.cfgUnknownAbort := rfl
@[simp] theorem State.skip_cfgVerbose (s : State) : (s.skip).cfgVerbose = s.cfgVerbose := rfl
@[simp] theorem State.skip_out (s : State) : (s.skip).out = s.out := rfl

/-! ### `State.finish` -/

@[simp] theorem State.finish_buf (s : State) : (s.finish).buf = s.buf := rfl
@[simp] theorem State.finish_inputLen (s : State) : (s.finish).inputLen = s.inputLen := rfl
@[simp] theorem State.finish_cur (s : State) : (s.finish).cur = s.cur := rfl
@[simp] theorem State.finish_st (s : State) : (s.finish).st = .done := rfl
@[simp] theorem State.finish_faultKind (s : State) : (s.finish).faultKind = s.faultKind := rfl
@[simp] theorem State.finish_faultPos (s : State) : (s.finish).faultPos = s.faultPos := rfl
@[simp] theorem State.finish_cfgUnknownAbort (s : State) : (s.finish).cfgUnknownAbort = s.cfgUnknownAbort := rfl
@[simp] theorem State.finish_cfgVerbose (s : State) : (s.finish).cfgVerbose = s.cfgVerbose := rfl
@[simp] theorem State.finish_out (s : State) : (s.finish).out = s.out := rfl

/-! ### `State.raise` -/

@[simp] theorem State.raise_buf (s : State) (k : FaultKind) : (s.raise k).buf = s.buf := rfl
@[simp] theorem State.raise_inputLen (s : State) (k : FaultKind) : (s.raise k).inputLen = s.inputLen := rfl
@[simp] theorem State.raise_cur (s : State) (k : FaultKind) : (s.raise k).cur = s.cur := rfl
@[simp] theorem State.raise_st (s : State) (k : FaultKind) : (s.raise k).st = .fault := rfl
@[simp] theorem State.raise_faultKind (s : State) (k : FaultKind) : (s.raise k).faultKind = k := rfl
@[simp] theorem State.raise_faultPos (s : State) (k : FaultKind) : (s.raise k).faultPos = s.cur := rfl
@[simp] theorem State.raise_cfgUnknownAbort (s : State) (k : FaultKind) : (s.raise k).cfgUnknownAbort = s.cfgUnknownAbort := rfl
@[simp] theorem State.raise_cfgVerbose (s : State) (k : FaultKind) : (s.raise k).cfgVerbose = s.cfgVerbose := rfl
@[simp] theorem State.raise_out (s : State) (k : FaultKind) : (s.raise k).out = s.out := rfl

/-! ### `State.hostReset` -/

@[simp] theorem State.hostReset_buf (s : State) : (s.hostReset).buf = s.buf := rfl
@[simp] theorem State.hostReset_inputLen (s : State) : (s.hostReset).inputLen = s.inputLen := rfl
@[simp] theorem State.hostReset_cur (s : State) : (s.hostReset).cur = 0 := rfl
@[simp] theorem State.hostReset_st (s : State) : (s.hostReset).st = .idle := rfl
@[simp] theorem State.hostReset_faultKind (s : State) : (s.hostReset).faultKind = .none := rfl
@[simp] theorem State.hostReset_faultPos (s : State) : (s.hostReset).faultPos = 0 := rfl
@[simp] theorem State.hostReset_cfgUnknownAbort (s : State) : (s.hostReset).cfgUnknownAbort = false := rfl
@[simp] theorem State.hostReset_cfgVerbose (s : State) : (s.hostReset).cfgVerbose = false := rfl
@[simp] theorem State.hostReset_out (s : State) : (s.hostReset).out = [] := rfl

/-! ### `State.started` -/

@[simp] theorem State.started_buf (s : State) : (s.started).buf = s.buf := rfl
@[simp] theorem State.started_inputLen (s : State) : (s.started).inputLen = s.inputLen := rfl
@[simp] theorem State.started_cur (s : State) : (s.started).cur = 0 := rfl
@[simp] theorem State.started_st (s : State) : (s.started).st = .run := rfl
@[simp] theorem State.started_faultKind (s : State) : (s.started).faultKind = .none := rfl
@[simp] theorem State.started_faultPos (s : State) : (s.started).faultPos = 0 := rfl
@[simp] theorem State.started_cfgUnknownAbort (s : State) : (s.started).cfgUnknownAbort = s.cfgUnknownAbort := rfl
@[simp] theorem State.started_cfgVerbose (s : State) : (s.started).cfgVerbose = s.cfgVerbose := rfl
@[simp] theorem State.started_out (s : State) : (s.started).out = s.out := rfl

/-! ### `State.withFetchWord` -/

@[simp] theorem State.withFetchWord_buf (s : State) (n w : Nat) : (s.withFetchWord n w).buf = s.buf.writeBytes s.cur (tableBytes n w) := rfl
@[simp] theorem State.withFetchWord_inputLen (s : State) (n w : Nat) : (s.withFetchWord n w).inputLen = max s.inputLen (s.cur + maxInstrLen) := rfl
@[simp] theorem State.withFetchWord_cur (s : State) (n w : Nat) : (s.withFetchWord n w).cur = s.cur := rfl
@[simp] theorem State.withFetchWord_st (s : State) (n w : Nat) : (s.withFetchWord n w).st = .run := rfl
@[simp] theorem State.withFetchWord_faultKind (s : State) (n w : Nat) : (s.withFetchWord n w).faultKind = s.faultKind := rfl
@[simp] theorem State.withFetchWord_faultPos (s : State) (n w : Nat) : (s.withFetchWord n w).faultPos = s.faultPos := rfl
@[simp] theorem State.withFetchWord_cfgUnknownAbort (s : State) (n w : Nat) : (s.withFetchWord n w).cfgUnknownAbort = s.cfgUnknownAbort := rfl
@[simp] theorem State.withFetchWord_cfgVerbose (s : State) (n w : Nat) : (s.withFetchWord n w).cfgVerbose = s.cfgVerbose := rfl
@[simp] theorem State.withFetchWord_out (s : State) (n w : Nat) : (s.withFetchWord n w).out = s.out := rfl

end Sys2Proof.Machine
end

