-- ==== Sys2Proof/Laws/Exec.lean ====
section
/-! SUPPORT. What the meanings do, said once: the record of each instruction, completion, and all the ways in which
`exec` can answer. -/

namespace Sys2Proof.Machine

theorem complete_fits {r : Record} {s : State} (h : s.cur + r.len ≤ s.inputLen) :
    complete r s = .next (s.commit r) := if_pos h

theorem complete_short {r : Record} {s : State} (h : s.inputLen < s.cur + r.len) :
    complete r s = .next (s.raise .truncated) := if_neg (Nat.not_le.2 h)

theorem execUnknownOpcode_skip {s : State} (h : s.cfgUnknownAbort = false) : execUnknownOpcode s = .next s.skip := by
  simp [execUnknownOpcode, h]

theorem execUnknownOpcode_abort {s : State} (h : s.cfgUnknownAbort = true) :
    execUnknownOpcode s = .next (s.raise .unknownOpcode) := by
  simp [execUnknownOpcode, h]

/-! ### The record of an instruction -/

theorem recordOf_len {i : Instr} {p : Nat} {r : Record} (h : recordOf i p = some r) : r.len = i.length := by
  cases i
  case unknownOpcode op => simp [recordOf] at h
  case movRImm w reg imm =>
    simp only [recordOf, Option.some.injEq] at h
    subst h
    simp only [recordImmReg, Instr.length, (movImmReg_opcode_fields w reg).2.1]
  all_goals
    simp only [recordOf, Option.some.injEq] at h
    subst h
    rfl

theorem recordOf_pos {i : Instr} {p : Nat} {r : Record} (h : recordOf i p = some r) : r.pos = p := by
  cases i
  case unknownOpcode op => simp [recordOf] at h
  all_goals
    simp only [recordOf, Option.some.injEq] at h
    subst h
    rfl

/-- Only `pos` depends on the offset (40_decode_cycle.md R107). -/
theorem recordOf_at (i : Instr) (p q : Nat) : recordOf i q = (recordOf i p).map (·.at q) := by
  cases i <;> rfl

theorem recordOf_eq_none_iff (i : Instr) (p : Nat) : recordOf i p = none ↔ ∃ op, i = .unknownOpcode op := by
  cases i <;> simp [recordOf]

/-! ### The outcomes of `exec` -/

/-- `exec` in terms of the instruction's record: the MOV forms complete it, the placeholder forms commit it, and an unknown
opcode, which has none, is skipped or aborts. -/
theorem exec_eq (i : Instr) (s : State) :
    exec i s =
      match recordOf i s.cur with
      | some r => if isMovKind r.kind then complete r s else .next (s.commit r)
      | none => execUnknownOpcode s := by
  cases i <;> rfl

/-- An instruction with a record, all of whose bytes lie below `L`, commits. -/
theorem exec_fits {i : Instr} {s : State} {r : Record} (hr : recordOf i s.cur = some r)
    (hf : s.cur + i.length ≤ s.inputLen) : exec i s = .next (s.commit r) := by
  have hl := recordOf_len hr
  cases i
  case unknownOpcode op => simp [recordOf] at hr
  case phMemToAcc w => simp only [recordOf, Option.some.injEq] at hr; subst hr; rfl
  case phAccToMem w => simp only [recordOf, Option.some.injEq] at hr; subst hr; rfl
  case phRmToSreg => simp only [recordOf, Option.some.injEq] at hr; subst hr; rfl
  case phSregToRm => simp only [recordOf, Option.some.injEq] at hr; subst hr; rfl
  all_goals
    simp only [recordOf, Option.some.injEq] at hr
    subst hr
    exact complete_fits (by rw [hl]; exact hf)

/-- Everything that `exec` can do. -/
theorem exec_cases (i : Instr) (s : State) :
    (∃ r, recordOf i s.cur = some r ∧ exec i s = .next (s.commit r)) ∨
    (∃ r, recordOf i s.cur = some r ∧ s.inputLen < s.cur + i.length ∧ exec i s = .next (s.raise .truncated)) ∨
    (recordOf i s.cur = none ∧ s.cfgUnknownAbort = false ∧ exec i s = .next s.skip) ∨
    (recordOf i s.cur = none ∧ s.cfgUnknownAbort = true ∧ exec i s = .next (s.raise .unknownOpcode)) := by
  have hc : ∀ r : Record, recordOf i s.cur = some r → exec i s = complete r s →
      (∃ r, recordOf i s.cur = some r ∧ exec i s = .next (s.commit r)) ∨
      (∃ r, recordOf i s.cur = some r ∧ s.inputLen < s.cur + i.length ∧ exec i s = .next (s.raise .truncated)) := by
    intro r hr he
    rcases Nat.lt_or_ge s.inputLen (s.cur + r.len) with hlt | hge
    · exact .inr ⟨r, hr, recordOf_len hr ▸ hlt, he.trans (complete_short hlt)⟩
    · exact .inl ⟨r, hr, he.trans (complete_fits hge)⟩
  cases i
  case unknownOpcode op =>
    cases ha : s.cfgUnknownAbort
    · exact .inr (.inr (.inl ⟨rfl, rfl, execUnknownOpcode_skip ha⟩))
    · exact .inr (.inr (.inr ⟨rfl, rfl, execUnknownOpcode_abort ha⟩))
  case phMemToAcc w => exact .inl ⟨_, rfl, rfl⟩
  case phAccToMem w => exact .inl ⟨_, rfl, rfl⟩
  case phRmToSreg => exact .inl ⟨_, rfl, rfl⟩
  case phSregToRm => exact .inl ⟨_, rfl, rfl⟩
  all_goals
    rcases hc _ rfl rfl with h | h
    · exact .inl h
    · exact .inr (.inl h)

end Sys2Proof.Machine
end

