-- ==== Sys2Proof/Laws/Memory.lean ====
section
/-! SUPPORT. The input buffer: reads after writes, the canonical form, and runs of bytes. -/

namespace Sys2Proof.Machine

/-! ### One written byte -/

/-- Every offset listed after a head of a canonical buffer is greater than the head's. -/
theorem Memory.lookup_eq_none_of_lt {m : Memory} {a : Nat} (h : ∀ c ∈ m, a < c.1) : m.lookup a = none := by
  induction m with
  | nil => rfl
  | cons c m ih =>
    have hc := h c (by simp)
    rw [Memory.lookup, if_neg (by omega)]
    exact ih fun c' hc' => h c' (by simp [hc'])

theorem Memory.lookup_write_same (m : Memory) (a : Nat) (v : Byte) : (m.write a v).lookup a = some v := by
  induction m with
  | nil => simp [Memory.write, Memory.lookup]
  | cons c m ih =>
    obtain ⟨x, b⟩ := c
    unfold Memory.write
    split
    · simp [Memory.lookup]
    · split
      · simp [Memory.lookup]
      · next h => rw [Memory.lookup, if_neg h, ih]

theorem Memory.lookup_write_other (m : Memory) {a a' : Nat} (v : Byte) (h : a' ≠ a) :
    (m.write a v).lookup a' = m.lookup a' := by
  induction m with
  | nil => simp [Memory.write, Memory.lookup, h]
  | cons c m ih =>
    obtain ⟨x, b⟩ := c
    unfold Memory.write
    split
    · simp [Memory.lookup, h]
    · split
      · next hx => subst hx; simp [Memory.lookup, h]
      · simp only [Memory.lookup, ih]

/-- Which cells a write leaves: the written one, and old ones. -/
theorem Memory.mem_write {m : Memory} {a : Nat} {v : Byte} {c : Host.Cell} (h : c ∈ m.write a v) :
    c = (a, v) ∨ c ∈ m := by
  induction m with
  | nil => simpa [Memory.write] using h
  | cons d m ih =>
    obtain ⟨x, b⟩ := d
    unfold Memory.write at h
    split at h
    · simpa using h
    · split at h
      · rcases List.mem_cons.1 h with h | h
        · exact .inl h
        · exact .inr (by simp [h])
      · rcases List.mem_cons.1 h with h | h
        · exact .inr (by simp [h])
        · rcases ih h with h | h
          · exact .inl h
          · exact .inr (by simp [h])

/-- A write keeps the canonical form. -/
theorem Memory.write_wf {m : Memory} (a : Nat) (v : Byte) (h : m.wf) : (m.write a v).wf := by
  induction m with
  | nil => simp [Memory.write, Memory.wf]
  | cons c m ih =>
    obtain ⟨x, b⟩ := c
    obtain ⟨hx, hm⟩ := List.pairwise_cons.1 h
    unfold Memory.write
    split
    · next hlt =>
      refine List.pairwise_cons.2 ⟨fun d hd => ?_, h⟩
      rcases List.mem_cons.1 hd with rfl | hd
      · exact hlt
      · have := hx d hd
        simp only at this ⊢
        omega
    · split
      · next heq => subst heq; exact List.pairwise_cons.2 ⟨hx, hm⟩
      · next hnlt hne =>
        refine List.pairwise_cons.2 ⟨fun d hd => ?_, ih hm⟩
        rcases Memory.mem_write hd with rfl | hd
        · simp only; omega
        · exact hx d hd

/-- Two canonical buffers that list the same bytes are equal. -/
theorem Memory.ext_lookup {m m' : Memory} (h : m.wf) (h' : m'.wf) (hr : ∀ a, m.lookup a = m'.lookup a) : m = m' := by
  induction m generalizing m' with
  | nil =>
    cases m' with
    | nil => rfl
    | cons c m' => simpa [Memory.lookup] using hr c.1
  | cons c m ih =>
    obtain ⟨x, b⟩ := c
    obtain ⟨hx, hm⟩ := List.pairwise_cons.1 h
    cases m' with
    | nil => simpa [Memory.lookup] using hr x
    | cons c' m' =>
      obtain ⟨x', b'⟩ := c'
      obtain ⟨hx', hm'⟩ := List.pairwise_cons.1 h'
      have hxx : x = x' := by
        rcases Nat.lt_trichotomy x x' with hlt | heq | hgt
        · have h1 := hr x
          rw [Memory.lookup, if_pos rfl, Memory.lookup, if_neg (by omega),
            Memory.lookup_eq_none_of_lt fun d hd => lt_trans hlt (hx' d hd)] at h1
          simp at h1
        · exact heq
        · have h1 := hr x'
          rw [Memory.lookup, if_neg (by omega), Memory.lookup, if_pos rfl,
            Memory.lookup_eq_none_of_lt fun d hd => lt_trans hgt (hx d hd)] at h1
          simp at h1
      subst hxx
      have hb : b = b' := by simpa [Memory.lookup] using hr x
      subst hb
      refine congrArg _ (ih hm hm' fun a => ?_)
      by_cases ha : a = x
      · subst ha
        rw [Memory.lookup_eq_none_of_lt hx, Memory.lookup_eq_none_of_lt hx']
      · have := hr a
        rwa [Memory.lookup, if_neg ha, Memory.lookup, if_neg ha] at this

/-! ### One byte -/

theorem Memory.read_of_lookup {m : Memory} {a : Nat} {v : Byte} (h : m.lookup a = some v) : m.read a = v := by
  rw [Memory.read, h, Option.getD_some]

/-- An offset that nothing has written holds its free value. -/
theorem Memory.read_of_unwritten {m : Memory} {a : Nat} (h : m.lookup a = none) :
    m.read a = Config.unloadedByte a := by
  rw [Memory.read, h, Option.getD_none]

theorem Memory.read_write_same (m : Memory) (a : Nat) (v : Byte) : (m.write a v).read a = v :=
  Memory.read_of_lookup (Memory.lookup_write_same m a v)

theorem Memory.read_write_other (m : Memory) {a a' : Nat} (v : Byte) (h : a' ≠ a) :
    (m.write a v).read a' = m.read a' := by
  rw [Memory.read, Memory.lookup_write_other m v h, Memory.read]

/-! ### Runs of bytes -/

theorem Memory.writeBytes_wf {m : Memory} (a : Nat) (vs : List Byte) (h : m.wf) : (m.writeBytes a vs).wf := by
  induction vs generalizing m a with
  | nil => exact h
  | cons v vs ih => exact ih (a + 1) (Memory.write_wf a v h)

theorem State.reset_buf_wf : State.reset.buf.wf := List.Pairwise.nil

theorem State.withFetchWord_buf_wf (s : State) (nbits w : Nat) (h : s.buf.wf) : (s.withFetchWord nbits w).buf.wf :=
  Memory.writeBytes_wf _ _ h

theorem Memory.read_writeBytes_before (m : Memory) {a x : Nat} (vs : List Byte) (h : x < a) :
    (m.writeBytes a vs).read x = m.read x := by
  induction vs generalizing m a with
  | nil => rfl
  | cons v vs ih =>
    rw [Memory.writeBytes, ih _ (by omega), Memory.read_write_other _ _ (by omega)]

theorem Memory.read_writeBytes_after (m : Memory) {a x : Nat} (vs : List Byte) (h : a + vs.length ≤ x) :
    (m.writeBytes a vs).read x = m.read x := by
  induction vs generalizing m a with
  | nil => rfl
  | cons v vs ih =>
    rw [List.length_cons] at h
    rw [Memory.writeBytes, ih _ (by omega), Memory.read_write_other _ _ (by omega)]

theorem Memory.read_writeBytes (m : Memory) (a : Nat) (vs : List Byte) (k : Nat) (h : k < vs.length) :
    (m.writeBytes a vs).read (a + k) = vs[k] := by
  induction vs generalizing m a k with
  | nil => simp at h
  | cons v vs ih =>
    rw [Memory.writeBytes]
    cases k with
    | zero => rw [Memory.read_writeBytes_before _ _ (by omega), Nat.add_zero, Memory.read_write_same]; rfl
    | succ k =>
      have := ih (m.write a v) (a + 1) k (by simpa using h)
      rw [show a + (k + 1) = a + 1 + k by omega, this]
      rfl

@[simp] theorem Memory.readRun_length (m : Memory) (a n : Nat) : (m.readRun a n).length = n := by
  induction n generalizing a with
  | zero => rfl
  | succ n ih => rw [Memory.readRun, List.length_cons, ih]

/-- The bytes of a run are the bytes at its offsets. -/
theorem Memory.read_of_readRun (m : Memory) (a n k : Nat) (h : k < (m.readRun a n).length) :
    m.read (a + k) = (m.readRun a n)[k] := by
  induction n generalizing a k with
  | zero => simp at h
  | succ n ih =>
    cases k with
    | zero => rfl
    | succ k =>
      have := ih (a + 1) k (by simpa using h)
      rw [show a + (k + 1) = a + 1 + k by omega, this]
      rfl

/-- Where known bytes stand, a run that covers them begins with them. -/
theorem Memory.readRun_of_reads (m : Memory) (a n : Nat) (bs : List Byte) (hn : bs.length ≤ n)
    (h : ∀ k, (hk : k < bs.length) → m.read (a + k) = bs[k]) :
    m.readRun a n = bs ++ m.readRun (a + bs.length) (n - bs.length) := by
  induction bs generalizing a n with
  | nil => simp
  | cons b bs ih =>
    cases n with
    | zero => simp at hn
    | succ n =>
      have hb : m.read a = b := h 0 (by simp)
      simp only [Memory.readRun, hb, List.cons_append]
      refine congrArg _ ?_
      have := ih (a + 1) n (by simpa using hn) fun k hk => by
        have := h (k + 1) (by simpa using hk)
        rw [show a + 1 + k = a + (k + 1) by omega, this]
        rfl
      rw [this, List.length_cons, Nat.add_sub_add_right, show a + 1 + bs.length = a + (bs.length + 1) by omega]

/-- A run depends on the bytes at its offsets only. -/
theorem Memory.readRun_congr (m m' : Memory) (a n : Nat) (h : ∀ x, a ≤ x → x < a + n → m.read x = m'.read x) :
    m.readRun a n = m'.readRun a n := by
  induction n generalizing a with
  | zero => rfl
  | succ n ih =>
    rw [Memory.readRun, Memory.readRun, h a (by omega) (by omega), ih (a + 1) fun x h1 h2 => h x (by omega) (by omega)]

end Sys2Proof.Machine
end

