-- ==== Sys2Proof/Laws/PerInstr.lean ====
section
/-! SUPPORT. Facts about every instruction as syntax, one lemma per constructor. -/

namespace Sys2Proof.Laws.EncodedLength

/-- The encoding of a well-formed instruction has the length that R75 gives it, from one byte to six (R80). -/
def Statement (i : Instr) : Prop :=
  i.wellFormed = true → (encode i).length = i.length ∧ 1 ≤ i.length ∧ i.length ≤ maxInstrLen

/-- The shape of every case: the opcode byte and the operand bytes. -/
theorem of_operandBytes {i : Instr} (h : i.wellFormed = true → i.operandBytes.length + 1 = i.length) : Statement i :=
  fun hw => ⟨h hw, length_pos i, length_le i⟩

/-- The four forms of 88-8B share their operand bytes. -/
theorem rmBytes_succ {reg : BitVec 3} {m : RmForm} (h : m.wellFormed = true) :
    (rmBytes reg m).length + 1 = 2 + dispLen m.mode m.rm := by
  rw [rmBytes_length reg m h]
  omega

theorem movRm8R8 (dst : RmForm) (src : BitVec 3) : Statement (.movRm8R8 dst src) :=
  of_operandBytes fun h => rmBytes_succ h

theorem movRm16R16 (dst : RmForm) (src : BitVec 3) : Statement (.movRm16R16 dst src) :=
  of_operandBytes fun h => rmBytes_succ h

theorem movR8Rm8 (dst : BitVec 3) (src : RmForm) : Statement (.movR8Rm8 dst src) :=
  of_operandBytes fun h => rmBytes_succ h

theorem movR16Rm16 (dst : BitVec 3) (src : RmForm) : Statement (.movR16Rm16 dst src) :=
  of_operandBytes fun h => rmBytes_succ h

theorem movRm8Imm8 (ign : BitVec 3) (dst : RmForm) (imm : Byte) : Statement (.movRm8Imm8 ign dst imm) :=
  of_operandBytes fun h => by
    have := rmBytes_succ (reg := ign) h
    simp only [Instr.operandBytes, Instr.length, List.length_append, List.length_cons, List.length_nil,
      show immLen 0#1 = 1 from rfl]
    omega

theorem movRm16Imm16 (ign : BitVec 3) (dst : RmForm) (imm : Half) : Statement (.movRm16Imm16 ign dst imm) :=
  of_operandBytes fun h => by
    have := rmBytes_succ (reg := ign) h
    simp only [Instr.operandBytes, Instr.length, List.length_append, bytesOfHalf_length,
      show immLen 1#1 = 2 from rfl]
    omega

theorem movRImm (w : BitVec 1) (reg : BitVec 3) (imm : Half) : Statement (.movRImm w reg imm) :=
  of_operandBytes fun _ => by
    rw [Instr.operandBytes, immBytes_length, Instr.length]
    omega

theorem phMemToAcc (w : BitVec 1) : Statement (.phMemToAcc w) := of_operandBytes fun _ => rfl

theorem phAccToMem (w : BitVec 1) : Statement (.phAccToMem w) := of_operandBytes fun _ => rfl

theorem phRmToSreg : Statement .phRmToSreg := of_operandBytes fun _ => rfl

theorem phSregToRm : Statement .phSregToRm := of_operandBytes fun _ => rfl

theorem unknownOpcode (op : Byte) : Statement (.unknownOpcode op) := of_operandBytes fun _ => rfl

end Sys2Proof.Laws.EncodedLength
end

