-- ==== Sys2Proof/Laws/Step.lean ====
section
/-! SUPPORT. Fetching, and everything that a step can do. -/

namespace Sys2Proof.Machine

/-! ### The window at the cursor -/

@[simp] theorem State.window_length (s : State) : s.window.length = s.windowLen :=
  Memory.readRun_length _ _ _

/-- The window's bytes stand at the cursor. -/
theorem State.bytesAtCursor_window (s : State) (h : s.cur ≤ s.inputLen) : s.bytesAtCursor s.window := by
  refine ⟨?_, fun k hk => Memory.read_of_readRun _ _ _ _ hk⟩
  rw [State.window_length, State.windowLen]
  omega

/-- A front part of the bytes at the cursor stands there too. -/
theorem State.bytesAtCursor_append {s : State} {front rest : List Byte} (h : s.bytesAtCursor (front ++ rest)) :
    s.bytesAtCursor front := by
  refine ⟨?_, fun k hk => ?_⟩
  · have := h.1
    rw [List.length_append] at this
    omega
  · rw [h.2 k (by rw [List.length_append]; omega), List.getElem_append_left hk]

/-- Bytes that stand at the cursor begin the window, if they are no more than an instruction has. -/
theorem State.window_of_bytes {s : State} {bs : List Byte} (h : s.bytesAtCursor bs) (hl : bs.length ≤ maxInstrLen) :
    ∃ more, s.window = bs ++ more := by
  have := h.1
  exact ⟨_, Memory.readRun_of_reads _ _ _ _ (by rw [State.windowLen]; omega) h.2⟩

/-! ### Fetching -/

/-- The bytes of an instruction at the cursor are fetched as it. -/
theorem State.fetch_of_bytes {s : State} {bs : List Byte} {i : Instr} (h : s.bytesAtCursor bs)
    (hd : decode bs = .ok (i, [])) : s.fetch = .instr i := by
  have hl := decode_length hd
  have hm := length_le i
  obtain ⟨more, hw⟩ := State.window_of_bytes h (by simp at hl; omega)
  rw [State.fetch, hw, decode_append hd more]

/-- What is fetched as an instruction stands at the cursor. -/
theorem State.bytes_of_fetch {s : State} {i : Instr} (hc : s.cur ≤ s.inputLen) (h : s.fetch = .instr i) :
    ∃ bs, s.bytesAtCursor bs ∧ decode bs = .ok (i, []) := by
  unfold State.fetch at h
  split at h
  · next j rest hd =>
    obtain rfl : j = i := by simpa using h
    obtain ⟨front, hf, hd'⟩ := decode_front hd
    exact ⟨front, State.bytesAtCursor_append (hf ▸ s.bytesAtCursor_window hc), hd'⟩
  · simp at h

/-- The end of the input inside an instruction is fetched as such. -/
theorem State.fetch_truncated_of_bytes {s : State} {bs : List Byte} {e : DecodeError} (h : s.bytesAtCursor bs)
    (he : s.cur + bs.length = s.inputLen) (hd : decode bs = .error e) : s.fetch = .truncated := by
  have hs := decode_error_short hd
  obtain ⟨more, hw⟩ := State.window_of_bytes h (by omega)
  have hl := s.window_length
  have hwl : s.windowLen = bs.length := by rw [State.windowLen]; omega
  have hmore : more = [] := by
    rw [hw, List.length_append] at hl
    exact List.length_eq_zero_iff.1 (by omega)
  subst hmore
  rw [List.append_nil] at hw
  rw [State.fetch, hw, hd]

/-- What is fetched as truncated is the rest of the input. -/
theorem State.bytes_of_fetch_truncated {s : State} (hc : s.cur ≤ s.inputLen) (h : s.fetch = .truncated) :
    ∃ bs e, s.bytesAtCursor bs ∧ s.cur + bs.length = s.inputLen ∧ decode bs = .error e := by
  unfold State.fetch at h
  split at h
  · simp at h
  · next e hd =>
    refine ⟨s.window, e, s.bytesAtCursor_window hc, ?_, hd⟩
    have hs := decode_error_short hd
    rw [State.window_length, State.windowLen] at hs
    rw [State.window_length, State.windowLen]
    omega

/-! ### The step -/

theorem step_at_end {s : State} (hr : s.st = .run) (h : s.cur = s.inputLen) : step s = .next s.finish := by
  rw [step, hr]
  exact if_pos h

theorem step_of_fetch {s : State} {i : Instr} (hr : s.st = .run) (hc : s.cur < s.inputLen)
    (h : s.fetch = .instr i) : step s = exec i s := by
  rw [step, hr]
  simp only
  rw [if_neg (by omega), if_neg (by omega), h]

theorem step_of_truncated {s : State} (hr : s.st = .run) (hc : s.cur < s.inputLen) (h : s.fetch = .truncated) :
    step s = .next (s.raise .truncated) := by
  rw [step, hr]
  simp only
  rw [if_neg (by omega), if_neg (by omega), h]

/-- Outside RUN no step is enabled (40_decode_cycle.md R100). -/
theorem step_not_run {s : State} (h : s.st ≠ .run) : step s = .fault (.noStepEnabled s.st) := by
  cases hs : s.st <;> simp_all [step]

/-- In RUN, with the cursor in the input, a step has a next state, whatever bytes stand there. -/
theorem step_has_next {s : State} (hr : s.st = .run) (hc : s.cur ≤ s.inputLen) : ∃ t, step s = .next t := by
  rcases Nat.lt_or_eq_of_le hc with h | h
  · cases hf : s.fetch with
    | instr i =>
      rw [step_of_fetch hr h hf]
      rcases exec_cases i s with ⟨_, _, h⟩ | ⟨_, _, _, h⟩ | ⟨_, _, h⟩ | ⟨_, _, h⟩ <;> exact ⟨_, h⟩
    | truncated => exact ⟨_, step_of_truncated hr h hf⟩
  · exact ⟨_, step_at_end hr h⟩

/-- Everything that a step with a next state can do. -/
theorem step_cases {s t : State} (h : step s = .next t) :
    s.st = .run ∧
      ((s.cur = s.inputLen ∧ t = s.finish) ∨
       (s.cur < s.inputLen ∧ ∃ i, s.fetch = .instr i ∧ exec i s = .next t) ∨
       (s.cur < s.inputLen ∧ s.fetch = .truncated ∧ t = s.raise .truncated)) := by
  cases hr : s.st
  case run =>
    refine ⟨rfl, ?_⟩
    rw [step, hr] at h
    simp only at h
    split at h
    · next hc => exact .inl ⟨hc, by simpa using h.symm⟩
    · split at h
      · simp at h
      · next h1 h2 =>
        have hc : s.cur < s.inputLen := by omega
        cases hf : s.fetch with
        | instr i => rw [hf] at h; exact .inr (.inl ⟨hc, i, rfl, h⟩)
        | truncated => rw [hf] at h; exact .inr (.inr ⟨hc, rfl, by simpa using h.symm⟩)
  all_goals
    rw [step, hr] at h
    simp at h

/-- The five ways in which a step changes the state, with what stands at the cursor. -/
theorem step_effects {s t : State} (h : step s = .next t) :
    s.st = .run ∧
      ((s.cur = s.inputLen ∧ t = s.finish) ∨
       (s.cur < s.inputLen ∧ ∃ bs i r, s.bytesAtCursor bs ∧ decode bs = .ok (i, []) ∧ recordOf i s.cur = some r ∧
          t = s.commit r) ∨
       (s.cur < s.inputLen ∧ ∃ op, s.bytesAtCursor [op] ∧ classify op = none ∧ s.cfgUnknownAbort = false ∧
          t = s.skip) ∨
       (s.cur < s.inputLen ∧ ∃ op, s.bytesAtCursor [op] ∧ classify op = none ∧ s.cfgUnknownAbort = true ∧
          t = s.raise .unknownOpcode) ∨
       (s.cur < s.inputLen ∧ (∃ bs e, s.bytesAtCursor bs ∧ s.cur + bs.length = s.inputLen ∧ decode bs = .error e) ∧
          t = s.raise .truncated)) := by
  obtain ⟨hr, hcase⟩ := step_cases h
  refine ⟨hr, ?_⟩
  rcases hcase with h1 | ⟨hc, i, hf, he⟩ | ⟨hc, hf, ht⟩
  · exact .inl h1
  · obtain ⟨bs, hb, hd⟩ := State.bytes_of_fetch (Nat.le_of_lt hc) hf
    have hl := decode_length hd
    have hunk : recordOf i s.cur = none → ∃ op, s.bytesAtCursor [op] ∧ classify op = none := by
      intro hn
      obtain ⟨op, rfl⟩ := (recordOf_eq_none_iff i s.cur).1 hn
      cases bs with
      | nil => simp [decode] at hd
      | cons b bs =>
        obtain ⟨rfl, hk, rfl⟩ := decode_unknown hd
        exact ⟨op, hb, hk⟩
    rcases exec_cases i s with ⟨r, hrec, hx⟩ | ⟨r, hrec, hlt, hx⟩ | ⟨hn, ha, hx⟩ | ⟨hn, ha, hx⟩
    · exact .inr (.inl ⟨hc, bs, i, r, hb, hd, hrec, by simpa using he.symm.trans hx⟩)
    · have := hb.1
      simp at hl
      omega
    · obtain ⟨op, hop, hk⟩ := hunk hn
      exact .inr (.inr (.inl ⟨hc, op, hop, hk, ha, by simpa using he.symm.trans hx⟩))
    · obtain ⟨op, hop, hk⟩ := hunk hn
      exact .inr (.inr (.inr (.inl ⟨hc, op, hop, hk, ha, by simpa using he.symm.trans hx⟩)))
  · exact .inr (.inr (.inr (.inr ⟨hc, State.bytes_of_fetch_truncated (Nat.le_of_lt hc) hf, ht⟩)))

end Sys2Proof.Machine
end

