-- ==== Sys2Proof/Laws/Run.lean ====
section
/-! SUPPORT. Host actions, runs and the text: what each can do, and the inductions over runs, packaged once. -/

namespace Sys2Proof.Machine

/-! ### Host actions -/

/-- A host write is done exactly outside RUN and within the capacity. -/
theorem hostWrite_next_iff (fits : Bool) (s t u : State) :
    hostWrite fits s t = .next u ↔ s.st ≠ .run ∧ fits = true ∧ t = u := by
  unfold hostWrite
  split
  · next h => simp [h]
  · next h => split <;> simp_all

/-- Everything that a host action with a next state can do. -/
theorem hostAct_cases {a : HostAction} {s t : State} (h : hostAct a s = .next t) :
    (a = .reset ∧ t = s.hostReset) ∨
    (a = .start ∧ s.st = .idle ∧ t = s.started) ∨
    (a = .start ∧ s.st ≠ .idle ∧ t = s) ∨
    (s.st ≠ .run ∧
      ((∃ i v, a = .writeBuf i v ∧ i < Config.lMax ∧ t = { s with buf := s.buf.write i v }) ∨
       (∃ n, a = .writeLen n ∧ n ≤ Config.lMax ∧ t = { s with inputLen := n }) ∨
       (∃ v, a = .writeUnknownAbort v ∧ t = { s with cfgUnknownAbort := v }) ∨
       ∃ v, a = .writeVerbose v ∧ t = { s with cfgVerbose := v })) := by
  cases a with
  | reset => exact .inl ⟨rfl, by simpa [hostAct] using h.symm⟩
  | start =>
    simp only [hostAct] at h
    split at h
    · next hi => exact .inr (.inl ⟨rfl, hi, by simpa using h.symm⟩)
    · next hi => exact .inr (.inr (.inl ⟨rfl, hi, by simpa using h.symm⟩))
  | writeBuf i v =>
    obtain ⟨hr, hf, rfl⟩ := (hostWrite_next_iff _ _ _ _).1 h
    exact .inr (.inr (.inr ⟨hr, .inl ⟨i, v, rfl, by simpa using hf, rfl⟩⟩))
  | writeLen n =>
    obtain ⟨hr, hf, rfl⟩ := (hostWrite_next_iff _ _ _ _).1 h
    exact .inr (.inr (.inr ⟨hr, .inr (.inl ⟨n, rfl, by simpa using hf, rfl⟩)⟩))
  | writeUnknownAbort v =>
    obtain ⟨hr, -, rfl⟩ := (hostWrite_next_iff _ _ _ _).1 h
    exact .inr (.inr (.inr ⟨hr, .inr (.inr (.inl ⟨v, rfl, rfl⟩))⟩))
  | writeVerbose v =>
    obtain ⟨hr, -, rfl⟩ := (hostWrite_next_iff _ _ _ _).1 h
    exact .inr (.inr (.inr ⟨hr, .inr (.inr (.inr ⟨v, rfl, rfl⟩))⟩))

theorem hostActs_append {as bs : List HostAction} {s t : State} (h : hostActs as s = .next t) :
    hostActs (as ++ bs) s = hostActs bs t := by
  induction as generalizing s with
  | nil =>
    obtain rfl : s = t := by simpa [hostActs] using h
    rfl
  | cons a as ih =>
    rw [hostActs] at h
    rw [List.cons_append, hostActs]
    cases ha : hostAct a s with
    | next u => rw [ha] at h; exact ih h
    | fault r => rw [ha] at h; simp at h
    | refused r => rw [ha] at h; simp at h

/-! ### Runs -/

/-- A run that has left RUN stays where it is. -/
theorem decodeRun_not_run {s : State} (k : Nat) (h : s.st ≠ .run) : decodeRun k s = .next s := by
  cases k with
  | zero => rfl
  | succ k => exact if_neg h

/-- A run in RUN takes a step and goes on. -/
theorem decodeRun_step {s t : State} (k : Nat) (hr : s.st = .run) (h : step s = .next t) :
    decodeRun (k + 1) s = decodeRun k t := by
  rw [decodeRun, if_pos hr, h]

/-- What holds of a state and itself, and is kept when a step is put in front, holds of the ends of every run. -/
theorem decodeRun_induct {P : State → State → Prop} (hrefl : ∀ s, P s s)
    (hstep : ∀ s t u, s.st = .run → step s = .next t → P t u → P s u) {k : Nat} {s t : State}
    (h : decodeRun k s = .next t) : P s t := by
  induction k generalizing s with
  | zero =>
    obtain rfl : s = t := by simpa [decodeRun] using h
    exact hrefl s
  | succ k ih =>
    by_cases hr : s.st = .run
    · rw [decodeRun, if_pos hr] at h
      cases hs : step s with
      | next u => rw [hs] at h; exact hstep s u t hr hs (ih h)
      | fault r => rw [hs] at h; simp at h
      | refused r => rw [hs] at h; simp at h
    · rw [decodeRun_not_run _ hr] at h
      obtain rfl : s = t := by simpa using h
      exact hrefl s

/-- What every event of a sequence keeps, the sequence keeps. -/
theorem runEvents_induct {P : State → Prop} {events : List Event}
    (hkeep : ∀ e ∈ events, ∀ s t, P s → eventStep e s = .next t → P t) {s t : State} (hs : P s)
    (h : runEvents events s = .next t) : P t := by
  induction events generalizing s with
  | nil =>
    obtain rfl : s = t := by simpa [runEvents] using h
    exact hs
  | cons e es ih =>
    rw [runEvents] at h
    cases he : eventStep e s with
    | next u =>
      rw [he] at h
      exact ih (fun e' h' => hkeep e' (List.mem_cons_of_mem _ h')) (hkeep e List.mem_cons_self s u hs he) h
    | fault r => rw [he] at h; simp at h
    | refused r => rw [he] at h; simp at h

/-! ### Text -/

/-- Once started, the block's text is the text of its records. -/
theorem State.text_of_started {s : State} (h : s.st ≠ .idle) : s.text = some (textOf s.cfgVerbose s.out) := by
  cases hs : s.st <;> simp_all [State.text]

theorem textOf_append (verbose : Bool) (rs rs' : List Record) :
    textOf verbose (rs ++ rs') = textOf verbose rs ++ rs'.flatMap (recordText verbose) := by
  simp only [textOf, List.flatMap_append, List.append_assoc]

theorem lf_not_mem_lineText (s : String) : lf ∉ Config.lineText s := by
  simp [Config.lineText, lf]

end Sys2Proof.Machine
end

