-- ==== Sys2Proof/Tests/Slice0.lean ====
section
/-! SUPPORT. Tests: the well-formedness smoke, words written out from the spec's encodings, one-step runs whose expected
texts, lengths and cursors are those of 95_test_vectors.md, and for each statement with hypotheses a state and operands
that meet them. -/

namespace Sys2Proof.Tests

open Sys2Proof.Machine

/-! ### Helpers -/

/-- The block started on an input, with the abort setting. -/
def startedWith (abort : Bool) (input : List Byte) : State :=
  { State.reset with
    buf := Memory.writeBytes [] 0 input, inputLen := input.length, st := .run, cfgUnknownAbort := abort }

/-- The block started on an input, as the vectors of 95_test_vectors.md start it. -/
def started (input : List Byte) : State := startedWith false input

/-- What one step from the start leaves: the text of the record it emits, its length, and the cursor. -/
def firstRecord (input : List Byte) : Option (Text × Nat × Nat) :=
  match step (started input) with
  | .next t => t.out.head?.map fun r => (line r, r.len, t.cur)
  | .fault _ => none
  | .refused _ => none

/-- Whether one step from the start faults with this kind, at position 0, with the cursor at 0 and no record. -/
def faultsAtStart (abort : Bool) (kind : FaultKind) (input : List Byte) : Bool :=
  match step (startedWith abort input) with
  | .next t => t.st == .fault && t.faultKind == kind && t.faultPos == 0 && t.cur == 0 && t.out == []
  | .fault _ => false
  | .refused _ => false

theorem startedWith_bytes (abort : Bool) (input : List Byte) : (startedWith abort input).bytesAtCursor input := by
  refine ⟨?_, fun k hk => Memory.read_writeBytes _ 0 _ k hk⟩
  rw [show (startedWith abort input).cur = 0 from rfl, show (startedWith abort input).inputLen = input.length from rfl]
  omega

theorem startedWith_inv (abort : Bool) (input : List Byte) : (startedWith abort input).Inv where
  bufWf := Memory.writeBytes_wf _ _ List.Pairwise.nil
  curInInput := fun _ => Nat.zero_le _
  idleClean := fun h => by simp [startedWith] at h
  faultRegs := fun _ => ⟨rfl, rfl⟩
  faultEntry := fun h => by simp [startedWith] at h
  recordFields := fun _ h => by simp [startedWith, State.reset] at h
  recordOrder := ⟨List.Pairwise.nil, fun _ h => by simp [startedWith, State.reset] at h⟩

/-! ### Well-formedness: each check refuses an ill-formed term -/

theorem test_wf_based_110_88 : Instr.wellFormed (.movRm8R8 (.based 0b110#3) 0#3) = false := by decide
theorem test_wf_based_110_89 : Instr.wellFormed (.movRm16R16 (.based 0b110#3) 0#3) = false := by decide
theorem test_wf_based_110_8A : Instr.wellFormed (.movR8Rm8 0#3 (.based 0b110#3)) = false := by decide
theorem test_wf_based_110_8B : Instr.wellFormed (.movR16Rm16 0#3 (.based 0b110#3)) = false := by decide
theorem test_wf_based_110_C6 : Instr.wellFormed (.movRm8Imm8 0#3 (.based 0b110#3) 0#8) = false := by decide
theorem test_wf_based_110_C7 : Instr.wellFormed (.movRm16Imm16 0#3 (.based 0b110#3) 0#16) = false := by decide
theorem test_wf_byte_immediate_256 : Instr.wellFormed (.movRImm 0#1 0#3 256#16) = false := by decide
theorem test_wf_known_byte_is_not_unknown : Instr.wellFormed (.unknownOpcode 0x8B#8) = false := by decide
theorem test_wf_byte_immediate_255 : Instr.wellFormed (.movRImm 0#1 0#3 255#16) = true := by decide
theorem test_wf_lea_is_unknown : Instr.wellFormed (.unknownOpcode 0x8D#8) = true := by decide

/-! ### Decoding: words written out bit by bit from 30_encoding.md R70-R76 -/

-- 100010dw, d = 0, w = 0; mod = 11, reg = 100, rm = 101 (41_mov_rm_reg.md R121)
theorem test_decode_88 :
    decode [0b10001000#8, 0b11100101#8] = .ok (.movRm8R8 (.reg 0b101#3) 0b100#3, []) := by decide
-- d = 0, w = 1; mod = 10, reg = 001, rm = 100, disp 0x8000 low byte first (95_test_vectors.md 2.4)
theorem test_decode_89 :
    decode [0b10001001#8, 0b10001100#8, 0x00#8, 0x80#8] = .ok (.movRm16R16 (.based16 0b100#3 0x8000#16) 0b001#3, []) := by
  decide
-- d = 1, w = 0; mod = 01, reg = 000, rm = 000, disp 0 (95_test_vectors.md W4)
theorem test_decode_8A :
    decode [0b10001010#8, 0b01000000#8, 0x00#8] = .ok (.movR8Rm8 0b000#3 (.based8 0b000#3 0#8), []) := by decide
-- d = 1, w = 1; mod = 00, reg = 011, rm = 110, direct address 1000, one byte left over (R124)
theorem test_decode_8B :
    decode [0b10001011#8, 0b00011110#8, 0xE8#8, 0x03#8, 0xFF#8] = .ok (.movR16Rm16 0b011#3 (.direct 1000#16), [0xFF#8]) := by
  decide
-- 1100011w, w = 0; mod = 00, the ignored field 111, rm = 000, data 5 (95_test_vectors.md 2.5)
theorem test_decode_C6 :
    decode [0b11000110#8, 0b00111000#8, 0x05#8] = .ok (.movRm8Imm8 0b111#3 (.based 0b000#3) 5#8, []) := by decide
-- w = 1; mod = 10, rm = 101, disp 901, data 347: the two reads apart (R143; 95_test_vectors.md 2.5)
theorem test_decode_C7 :
    decode [0b11000111#8, 0b10000101#8, 0x85#8, 0x03#8, 0x5B#8, 0x01#8] =
      .ok (.movRm16Imm16 0b000#3 (.based16 0b101#3 901#16) 347#16, []) := by decide
-- 1011wreg, w = 1, reg = 010, data 3948 (95_test_vectors.md 2.6)
theorem test_decode_BA :
    decode [0b10111010#8, 0x6C#8, 0x0F#8] = .ok (.movRImm 1#1 0b010#3 3948#16, []) := by decide
-- w = 0, reg = 101, data 244: one byte, zero-extended (95_test_vectors.md 2.6)
theorem test_decode_B5 : decode [0b10110101#8, 0xF4#8] = .ok (.movRImm 0#1 0b101#3 244#16, []) := by decide
theorem test_decode_A0 : decode [0b10100000#8, 0x34#8] = .ok (.phMemToAcc 0#1, [0x34#8]) := by decide
theorem test_decode_A3 : decode [0b10100011#8, 0x12#8] = .ok (.phAccToMem 1#1, [0x12#8]) := by decide
theorem test_decode_8E : decode [0b10001110#8, 0xD8#8] = .ok (.phRmToSreg, [0xD8#8]) := by decide
theorem test_decode_8C : decode [0b10001100#8, 0xD8#8] = .ok (.phSregToRm, [0xD8#8]) := by decide
theorem test_decode_90 : decode [0b10010000#8, 0x89#8] = .ok (.unknownOpcode 0x90#8, [0x89#8]) := by decide
theorem test_decode_nothing : decode [] = .error .noOpcode := by decide
-- 95_test_vectors.md 2.4 and 2.5: the direct address, then the data, cut short
theorem test_decode_truncated_address : decode [0x8B#8, 0x1E#8, 0xE8#8] = .error .truncated := by decide
theorem test_decode_truncated_data : decode [0xC7#8, 0x80#8, 0x00#8, 0x01#8, 0xFF#8] = .error .truncated := by decide

/-! ### Encoding: the same bytes back -/

theorem test_encode_C7 :
    encode (.movRm16Imm16 0b000#3 (.based8 0b110#3 0xFE#8) 0x1234#16) = [0xC7#8, 0x46#8, 0xFE#8, 0x34#8, 0x12#8] := by
  decide
theorem test_encode_B5 : encode (.movRImm 0#1 0b101#3 244#16) = [0xB5#8, 0xF4#8] := by decide

/-! ### Table words (spec/opcode_table.json): bits above the word are 0 -/

theorem test_tableWord_8B : decodeTableWord 8 0x8B = some (.movR16Rm16 0#3 (.based 0#3)) := by decide
theorem test_tableWord_two_bytes : decodeTableWord 16 0xD889 = some (.movRm16R16 (.reg 0b000#3) 0b011#3) := by decide
theorem test_fetchWord_runs_it :
    step (State.reset.withFetchWord 16 0xD889) =
      exec (.movRm16R16 (.reg 0b000#3) 0b011#3) (State.reset.withFetchWord 16 0xD889) := by rfl

/-! ### One step: text, length and cursor (95_test_vectors.md) -/

theorem test_run_89_W1 : firstRecord [0x89#8, 0xD8#8] = some ("mov ax, bx".toList, 2, 2) := by decide
theorem test_run_8B_W10 : firstRecord [0x8B#8, 0xD8#8] = some ("mov bx, ax".toList, 2, 2) := by decide
theorem test_run_89_min_disp :
    firstRecord [0x89#8, 0x8C#8, 0x00#8, 0x80#8] = some ("mov [si - 32768], cx".toList, 4, 4) := by decide
theorem test_run_88_disp8 : firstRecord [0x88#8, 0x6E#8, 0x80#8] = some ("mov [bp - 128], ch".toList, 3, 3) := by decide
theorem test_run_8A_W3 : firstRecord [0x8A#8, 0x46#8, 0x00#8] = some ("mov al, [bp]".toList, 3, 3) := by decide
theorem test_run_8A_W4 : firstRecord [0x8A#8, 0x40#8, 0x00#8] = some ("mov al, [bx + si + 0]".toList, 3, 3) := by decide
theorem test_run_8B_disp16_zero : firstRecord [0x8B#8, 0x86#8, 0x00#8, 0x00#8] = some ("mov ax, [bp]".toList, 4, 4) := by
  decide
theorem test_run_8B_W6 : firstRecord [0x8B#8, 0x1E#8, 0xE8#8, 0x03#8] = some ("mov bx, [1000]".toList, 4, 4) := by decide
theorem test_run_C6_ignored_field : firstRecord [0xC6#8, 0x38#8, 0x05#8] = some ("mov byte [bx + si], 5".toList, 3, 3) := by
  decide
theorem test_run_C6_register : firstRecord [0xC6#8, 0xC0#8, 0xFF#8] = some ("mov al, 255".toList, 3, 3) := by decide
theorem test_run_C7_direct :
    firstRecord [0xC7#8, 0x06#8, 0xE8#8, 0x03#8, 0x2C#8, 0x01#8] = some ("mov word [1000], 300".toList, 6, 6) := by decide
theorem test_run_C7_disp8 :
    firstRecord [0xC7#8, 0x46#8, 0xFE#8, 0x34#8, 0x12#8] = some ("mov word [bp - 2], 4660".toList, 5, 5) := by decide
theorem test_run_B8_W5 : firstRecord [0xB8#8, 0x05#8, 0x00#8] = some ("mov ax, 5".toList, 3, 3) := by decide
theorem test_run_B4 : firstRecord [0xB4#8, 0x00#8] = some ("mov ah, 0".toList, 2, 2) := by decide
theorem test_run_A1 : (firstRecord [0xA1#8]).map (·.2) = some (1, 1) := by decide
theorem test_run_A3 : (firstRecord [0xA3#8, 0x12#8, 0x34#8]).map (·.2) = some (1, 1) := by decide
theorem test_run_8E : (firstRecord [0x8E#8, 0xD8#8]).map (·.2) = some (1, 1) := by decide
theorem test_run_8C : (firstRecord [0x8C#8, 0xD8#8]).map (·.2) = some (1, 1) := by decide
theorem test_run_90_skip : step (started [0x90#8]) = .next (started [0x90#8]).skip := by rfl
theorem test_run_90_abort : faultsAtStart true .unknownOpcode [0x90#8] = true := by decide
theorem test_run_empty : step (started []) = .next (started []).finish := by rfl
theorem test_run_truncated_modrm : faultsAtStart false .truncated [0x89#8] = true := by decide
theorem test_run_truncated_data : faultsAtStart false .truncated [0xC7#8, 0x06#8, 0xE8#8, 0x03#8, 0x07#8] = true := by
  decide
theorem test_run_truncated_B8 : faultsAtStart false .truncated [0xBB#8, 0x01#8] = true := by decide

/-! ### Witnesses: states and operands that meet the hypotheses of each statement -/

/-- An input of one whole instruction, `mov ax, bx`, and its start. -/
def movInput : List Byte := [0x89#8, 0xD8#8]
def movStart : State := started movInput
def movInstr : Instr := .movRm16R16 (.reg 0b000#3) 0b011#3
def movRecord : Record := recordRmReg 0x89#8 0b011#3 (.reg 0b000#3) 0

/-- An input cut after its opcode, and one unknown byte, each with its start. -/
def cutStart : State := started [0x89#8]
def skipStart : State := started [0x90#8]
def abortStart : State := startedWith true [0x90#8]

theorem movStart_steps : step movStart = .next (movStart.commit movRecord) := by rfl
theorem cutStart_steps : step cutStart = .next (cutStart.raise .truncated) := by rfl
theorem skipStart_steps : step skipStart = .next skipStart.skip := by rfl
theorem abortStart_steps : step abortStart = .next (abortStart.raise .unknownOpcode) := by rfl
theorem emptyStart_steps : step (started []) = .next (started []).finish := by rfl

theorem witness_BootSequenceStartsDecoder :
    State.reset.st = .idle ∧ (List.replicate Config.lMax 0x90#8).length ≤ Config.lMax ∧
      ([] : List Byte).length ≤ Config.lMax :=
  ⟨rfl, by simp, Nat.zero_le _⟩

theorem witness_StartOutsideIdleHasNoEffect :
    movStart.st ≠ .idle ∧ (started []).finish.st = .done ∧ (cutStart.raise .truncated).st = .fault := by decide

/-- With the two sides of the buffer's capacity: the last offset and the greatest length within it, and the next ones. -/
theorem witness_HostWritesDuringRunAreRefused :
    movStart.st = .run ∧ HostAction.writeLen 0 ≠ .reset ∧ HostAction.writeLen 0 ≠ .start ∧ State.reset.st ≠ .run ∧
      1 ≠ 0 ∧ ¬ Config.lMax < Config.lMax ∧ (0 < Config.lMax → Config.lMax - 1 < Config.lMax) ∧
      Config.lMax ≤ Config.lMax ∧ ¬ Config.lMax + 1 ≤ Config.lMax :=
  ⟨by decide, by decide, by decide, by decide, by decide, by omega, by omega, by omega, by omega⟩

theorem witness_StepEnabledExactlyInRun :
    movStart.cur ≤ movStart.inputLen ∧ State.reset.st ≠ .run ∧
      step movStart = .next (movStart.commit movRecord) :=
  ⟨by decide, by decide, movStart_steps⟩

theorem witness_EndOfInputSetsDone :
    (started []).st = .run ∧ (started []).cur = (started []).inputLen ∧ step (started []) = .next (started []).finish ∧
      (started []).finish.st = .done :=
  ⟨rfl, rfl, emptyStart_steps, rfl⟩

theorem witness_StepRunsDecodedInstruction :
    movStart.st = .run ∧ movStart.bytesAtCursor movInput ∧ decode movInput = .ok (movInstr, []) :=
  ⟨rfl, startedWith_bytes _ _, by decide⟩

theorem witness_FaultEntryWritesStatusKindAndPosition :
    (cutStart.st = .run ∧ cutStart.bytesAtCursor [0x89#8] ∧ cutStart.cur + [0x89#8].length = cutStart.inputLen ∧
      decode [0x89#8] = .error .truncated) ∧
    (abortStart.st = .run ∧ abortStart.bytesAtCursor [0x90#8] ∧ classify 0x90#8 = none ∧
      abortStart.cfgUnknownAbort = true) :=
  ⟨⟨rfl, startedWith_bytes _ _, rfl, by decide⟩, rfl, startedWith_bytes _ _, by decide, rfl⟩

theorem witness_RunEndsWithinInputLengthPlusOne :
    movStart.st = .run ∧ movStart.cur ≤ movStart.inputLen :=
  ⟨rfl, by decide⟩

theorem witness_FaultsArePrecise :
    (step cutStart = .next (cutStart.raise .truncated) ∧ (cutStart.raise .truncated).st = .fault) ∧
    (step abortStart = .next (abortStart.raise .unknownOpcode) ∧ (abortStart.raise .unknownOpcode).st = .fault ∧
      (abortStart.raise .unknownOpcode).faultKind = .unknownOpcode ∧
      (abortStart.buf.write 1 0xFF#8).read abortStart.cur = abortStart.buf.read abortStart.cur) :=
  ⟨⟨cutStart_steps, rfl⟩, abortStart_steps, rfl, rfl, rfl⟩

theorem witness_FaultCausesExcludeEachOther :
    (step cutStart = .next (cutStart.raise .truncated) ∧ (cutStart.raise .truncated).st = .fault) ∧
      step abortStart = .next (abortStart.raise .unknownOpcode) ∧ (abortStart.raise .unknownOpcode).st = .fault :=
  ⟨⟨cutStart_steps, rfl⟩, abortStart_steps, rfl⟩

theorem witness_FaultIsFinalUntilReset :
    (cutStart.raise .truncated).st = .fault ∧ Event.host .reset ∉ [Event.host .start, .host (.writeVerbose true)] ∧
      runEvents [.host .start, .host (.writeVerbose true)] (cutStart.raise .truncated) =
        .next { cutStart.raise .truncated with cfgVerbose := true } :=
  ⟨rfl, by decide, rfl⟩

theorem witness_OutputGrowsInOrderAndFreezes :
    step movStart = .next (movStart.commit movRecord) ∧
    (step cutStart = .next (cutStart.raise .truncated) ∧ (cutStart.raise .truncated).st = .fault) ∧
    ((started []).finish.st = .done ∧ Event.host .reset ∉ [Event.host .start] ∧
      runEvents [.host .start] (started []).finish = .next (started []).finish) :=
  ⟨movStart_steps, ⟨cutStart_steps, rfl⟩, rfl, by decide, rfl⟩

theorem witness_StepWritesOnlyItsRegistersAndOutput : step movStart = .next (movStart.commit movRecord) :=
  movStart_steps

theorem witness_FaultRegistersWrittenOnlyByFaults :
    (step movStart = .next (movStart.commit movRecord) ∧ (movStart.commit movRecord).st ≠ .fault) ∧
    (step cutStart = .next (cutStart.raise .truncated) ∧ (cutStart.raise .truncated).st = .fault) ∧
    hostAct .reset movStart = .next movStart.hostReset ∧
    (State.reset.st = .idle ∧ hostAct .start State.reset = .next State.reset.started) ∧
    (HostAction.writeVerbose true ≠ .reset ∧ HostAction.writeVerbose true ≠ .start ∧
      hostAct (.writeVerbose true) State.reset = .next { State.reset with cfgVerbose := true }) :=
  ⟨⟨movStart_steps, by decide⟩, ⟨cutStart_steps, rfl⟩, rfl, ⟨rfl, rfl⟩, by decide, by decide, rfl⟩

theorem witness_StatusCodesAndEnabledSteps : step movStart = .next (movStart.commit movRecord) := movStart_steps

theorem witness_PrefixBytesAreSkipped :
    (started (0x26#8 :: movInput)).st = .run ∧ (started (0x26#8 :: movInput)).cfgUnknownAbort = false ∧
      (0x26#8 : Byte) ∈ [0x26#8, 0x2E#8, 0x36#8, 0x3E#8, 0xF0#8, 0xF2#8, 0xF3#8] ∧
      (started (0x26#8 :: movInput)).bytesAtCursor (0x26#8 :: movInput) ∧ decode movInput = .ok (movInstr, []) :=
  ⟨rfl, rfl, by decide, startedWith_bytes _ _, by decide⟩

theorem witness_DecodeOfEncodeGivesInstruction :
    Instr.wellFormed (.movRm16Imm16 0b111#3 (.direct 0xFFFF#16) 0xFFFF#16) = true ∧
      Instr.wellFormed (.movRImm 0#1 0b111#3 255#16) = true ∧ Instr.wellFormed (.unknownOpcode 0x8D#8) = true := by decide

theorem witness_EncodeOfDecodedGivesBytes : decode (movInput ++ [0xFF#8]) = .ok (movInstr, [0xFF#8]) := by decide

theorem witness_DecodeConsumesTabulatedLength :
    classify 0x8B#8 = some .movRmReg ∧ classify 0xC7#8 = some .movImmRm ∧ classify 0xBF#8 = some .movImmReg ∧
      classify 0x8D#8 = none ∧ decode movInput = .ok (movInstr, []) ∧
      exec (.unknownOpcode 0x90#8) skipStart = .next skipStart.skip ∧
      exec (.unknownOpcode 0x90#8) abortStart = .next (abortStart.raise .unknownOpcode) :=
  ⟨by decide, by decide, by decide, by decide, by decide, rfl, rfl⟩

/-- The same instruction, and the same cut one, at offset 1 behind an unknown byte. -/
def movBehind : State := { started (0x90#8 :: movInput) with cur := 1 }
def cutBehind : State := { started [0x90#8, 0x89#8] with cur := 1 }

theorem movBehind_bytes : movBehind.bytesAtCursor movInput := by
  refine ⟨by decide, ?_⟩
  rintro (_ | _ | k) hk
  · rfl
  · rfl
  · simp [movInput] at hk

theorem cutBehind_bytes : cutBehind.bytesAtCursor [0x89#8] := by
  refine ⟨by decide, ?_⟩
  rintro (_ | k) hk
  · rfl
  · simp at hk

theorem witness_DecodingDependsOnItsBytesOnly :
    (movStart.st = .run ∧ movBehind.st = .run ∧ movStart.cfgUnknownAbort = movBehind.cfgUnknownAbort ∧
      movStart.bytesAtCursor movInput ∧ movBehind.bytesAtCursor movInput ∧ decode movInput = .ok (movInstr, [])) ∧
    (cutStart.st = .run ∧ cutBehind.st = .run ∧ cutStart.bytesAtCursor [0x89#8] ∧ cutBehind.bytesAtCursor [0x89#8] ∧
      cutStart.cur + [0x89#8].length = cutStart.inputLen ∧ cutBehind.cur + [0x89#8].length = cutBehind.inputLen ∧
      decode [0x89#8] = .error .truncated) :=
  ⟨⟨rfl, rfl, rfl, startedWith_bytes _ _, movBehind_bytes, by decide⟩,
    rfl, rfl, startedWith_bytes _ _, cutBehind_bytes, rfl, rfl, by decide⟩

theorem witness_DontCareBitsChangeNothing :
    RmForm.wellFormed (.based 0b111#3) = true ∧
    (∃ r, recordOf (.movRm8Imm8 0b111#3 (.based 0#3) 5#8) 0 = some r ∧ r.kind = .movImmRm) ∧
    (∃ w w' r r', recordOf (.phMemToAcc w) 0 = some r ∧ recordOf (.phMemToAcc w') 0 = some r' ∧ w ≠ w') :=
  ⟨by decide, ⟨_, rfl, rfl⟩, ⟨0#1, 1#1, _, _, rfl, rfl, by decide⟩⟩

/-- At the boundary: the last byte of the instruction is the last of the input. -/
theorem witness_MovRm8R8Emits :
    (started [0x88#8, 0xE5#8]).cur + (2 + dispLen (RmForm.reg 0b101#3).mode (RmForm.reg 0b101#3).rm) ≤
      (started [0x88#8, 0xE5#8]).inputLen := by decide

theorem witness_MovRm16R16Emits :
    movStart.cur + (2 + dispLen (RmForm.reg 0b000#3).mode (RmForm.reg 0b000#3).rm) ≤ movStart.inputLen := by decide

theorem witness_MovR8Rm8Emits :
    (started [0x8A#8, 0x46#8, 0x00#8]).cur +
        (2 + dispLen (RmForm.based8 0b110#3 0#8).mode (RmForm.based8 0b110#3 0#8).rm) ≤
      (started [0x8A#8, 0x46#8, 0x00#8]).inputLen := by decide

theorem witness_MovR16Rm16Emits :
    (started [0x8B#8, 0x1E#8, 0xE8#8, 0x03#8]).cur +
        (2 + dispLen (RmForm.direct 1000#16).mode (RmForm.direct 1000#16).rm) ≤
      (started [0x8B#8, 0x1E#8, 0xE8#8, 0x03#8]).inputLen := by decide

theorem witness_MovRm8Imm8Emits :
    (started [0xC6#8, 0x03#8, 0x07#8]).cur + (2 + dispLen (RmForm.based 0b011#3).mode (RmForm.based 0b011#3).rm + 1) ≤
      (started [0xC6#8, 0x03#8, 0x07#8]).inputLen := by decide

theorem witness_MovRm16Imm16Emits :
    (started [0xC7#8, 0x06#8, 0xE8#8, 0x03#8, 0x2C#8, 0x01#8]).cur +
        (2 + dispLen (RmForm.direct 1000#16).mode (RmForm.direct 1000#16).rm + 2) ≤
      (started [0xC7#8, 0x06#8, 0xE8#8, 0x03#8, 0x2C#8, 0x01#8]).inputLen := by decide

theorem witness_MovRImmEmits :
    (started [0xB8#8, 0x05#8, 0x00#8]).cur + (2 + (1#1 : BitVec 1).toNat) ≤
      (started [0xB8#8, 0x05#8, 0x00#8]).inputLen := by decide

theorem witness_UnknownOpcodeIsSkipped :
    skipStart.cfgUnknownAbort = false ∧ skipStart.st = .run ∧ skipStart.bytesAtCursor [0x90#8] ∧
      classify 0x90#8 = none ∧ skipStart.cur + 1 = skipStart.inputLen :=
  ⟨rfl, rfl, startedWith_bytes _ _, by decide, rfl⟩

theorem witness_UnknownOpcodeAborts :
    abortStart.cfgUnknownAbort = true ∧ abortStart.st = .run ∧ abortStart.bytesAtCursor [0x90#8] ∧
      classify 0x90#8 = none :=
  ⟨rfl, rfl, startedWith_bytes _ _, by decide⟩

theorem witness_MovFormsTruncateBeyondInput :
    (∃ r, recordOf movInstr cutStart.cur = some r ∧ isMovKind r.kind = true) ∧
      cutStart.inputLen < cutStart.cur + movInstr.length :=
  ⟨⟨_, rfl, rfl⟩, by decide⟩

theorem witness_InstructionsLeaveTheRestUnchanged :
    exec movInstr movStart = .next (movStart.commit movRecord) ∧
      exec movInstr cutStart = .next (cutStart.raise .truncated) ∧
      exec (.unknownOpcode 0x90#8) skipStart = .next skipStart.skip ∧
      exec (.unknownOpcode 0x90#8) abortStart = .next (abortStart.raise .unknownOpcode) :=
  ⟨rfl, rfl, rfl, rfl⟩

theorem witness_ReadRmFollowsMod : (0b111#3 : BitVec 3) ≠ 0b110#3 := by decide

/-- A displacement and then data of the same width, which the two reads keep apart (R143). -/
theorem witness_FieldsAssembleFromBytes :
    readRmForm (modrmMod 0x46#8) (modrmRm 0x46#8) [0xFE#8, 0x07#8] = .ok (.based8 0b110#3 0xFE#8, 0x07#8 :: []) ∧
      readRmForm (modrmMod 0x85#8) (modrmRm 0x85#8) [0x85#8, 0x03#8, 0x5B#8, 0x01#8] =
        .ok (.based16 0b101#3 901#16, 0x5B#8 :: 0x01#8 :: []) := by decide

theorem witness_OnlyImmediateToMemoryCarriesKeyword :
    (step movStart = .next (movStart.commit movRecord) ∧ (movStart.commit movRecord).out = movStart.out ++ [movRecord] ∧
      movRecord.kind = .movRmReg) ∧
    (∃ t r, step (started [0xC6#8, 0x38#8, 0x05#8]) = .next t ∧ t.out = (started [0xC6#8, 0x38#8, 0x05#8]).out ++ [r] ∧
      r.kind = .movImmRm ∧ r.mode ≠ some .reg) ∧
    (∃ t r, step (started [0xB4#8, 0x00#8]) = .next t ∧ t.out = (started [0xB4#8, 0x00#8]).out ++ [r] ∧
      r.kind = .movImmReg) :=
  ⟨⟨movStart_steps, rfl, rfl⟩, ⟨_, _, rfl, rfl, rfl, by decide⟩, _, _, rfl, rfl, rfl⟩

theorem witness_MemoryOperandText :
    (0b101#3 : BitVec 3) ≠ 0b110#3 ∧
    (¬ ((0b110#3 : BitVec 3) = 0b110#3 ∧ (4#16 : Half).toInt = 0) ∧ 0 ≤ (4#16 : Half).toInt) ∧
    (¬ ((0b011#3 : BitVec 3) = 0b110#3 ∧ (0#16 : Half).toInt = 0) ∧ 0 ≤ (0#16 : Half).toInt) ∧
    (¬ ((0b110#3 : BitVec 3) = 0b110#3 ∧ (0x8000#16 : Half).toInt = 0) ∧ (0x8000#16 : Half).toInt < 0) := by decide

theorem witness_TextIsDirectiveThenRecordLines :
    State.reset.st = .idle ∧ (movStart.st ≠ .idle ∧ movStart.out = []) ∧
    ((movStart.commit movRecord).st ≠ .idle ∧ (movStart.commit movRecord).out = [] ++ [movRecord]) ∧
    (movStart.st ≠ .idle ∧ cutStart.st ≠ .idle ∧ movStart.out = cutStart.out ∧
      movStart.cfgVerbose = cutStart.cfgVerbose) ∧
    (movRecord.kind = .movRmReg ∧ movRecord.dst = some (.reg 0b1000#4) ∧ movRecord.src = some (.reg 0b1011#4)) ∧
    (recordImmReg 0xB8#8 5#16 0).kind = .movImmReg ∧ (recordPlaceholder .phAccToMem 0xA3#8 0).kind = .phAccToMem := by
  decide

theorem witness_TextGrowsByWholeLines :
    movStart.st = .run ∧ decodeRun 2 movStart = .next (movStart.commit movRecord).finish := ⟨rfl, rfl⟩

theorem witness_VerbosityAffectsTextOnly :
    movStart.st = .run ∧ State.reset.st ≠ .run ∧ step movStart = .next (movStart.commit movRecord) :=
  ⟨rfl, by decide, movStart_steps⟩

theorem witness_RecordKindCodes :
    decode movInput = .ok (movInstr, []) ∧ recordOf movInstr 0 = some movRecord := by decide

theorem witness_StepKeepsInvariant : movStart.Inv ∧ step movStart = .next (movStart.commit movRecord) :=
  ⟨startedWith_inv _ _, movStart_steps⟩

theorem witness_HostActionKeepsInvariant : movStart.Inv ∧ hostAct .reset movStart = .next movStart.hostReset :=
  ⟨startedWith_inv _ _, rfl⟩

theorem witness_PositionsFitTheirRegisters :
    (started []).Inv ∧ (started []).fits ∧ eventStep .decoderStep (started []) = .next (started []).finish :=
  ⟨startedWith_inv _ _, ⟨Nat.zero_le _, Nat.zero_le _, Nat.zero_le _⟩, emptyStart_steps⟩

/-- A record, a skipped byte, a record, DONE. -/
def gapStart : State := started [0xA1#8, 0x34#8, 0xA3#8]

theorem witness_RecordsAndSkippedBytesCoverInput :
    gapStart.st = .run ∧ gapStart.cur = 0 ∧ gapStart.out = [] ∧
    ∃ t r₁ r₂, decodeRun 4 gapStart = .next t ∧ t.st = .done ∧ t.out[0]? = some r₁ ∧ t.out[1]? = some r₂ ∧
      r₁.pos + r₁.len ≤ 1 ∧ 1 < r₂.pos :=
  ⟨rfl, rfl, rfl, _, _, _, rfl, rfl, rfl, rfl, by decide, by decide⟩

theorem witness_RunIsLinearSweep :
    movStart.st = .run ∧ movStart.cur = 0 ∧ movStart.out = [] ∧ movStart.faultKind = .none ∧
      movStart.inputLen = movInput.length ∧ movStart.bytesAtCursor movInput :=
  ⟨rfl, rfl, rfl, rfl, rfl, startedWith_bytes _ _⟩

theorem witness_BytesBeyondInputAreNeverRead :
    (∀ a, a < movStart.inputLen → (movStart.buf.write 2 0xFF#8).read a = movStart.buf.read a) ∧
      step movStart = .next (movStart.commit movRecord) :=
  ⟨by decide, movStart_steps⟩

/-- Started on one byte that nothing has written, and on `B8` with one such byte after it. -/
def unloadedStart : State := { State.reset with st := .run, inputLen := 1 }
def cutUnloadedStart : State := { State.reset with st := .run, inputLen := 2, buf := [(0, 0xB8#8)] }

theorem witness_UnwrittenBytesHoldFreeValues :
    unloadedStart.st = .run ∧ unloadedStart.cur ≤ unloadedStart.inputLen ∧ unloadedStart.buf.lookup 0 = none ∧
      ∃ t, step unloadedStart = .next t :=
  ⟨rfl, by decide, rfl, step_has_next rfl (by decide)⟩

/-- At the boundary: `mov ax, imm16` with one byte of its immediate below `L`, whatever that byte is; and the two bytes of
`mov ax, bx`, which reach `L` and are not truncated. -/
theorem witness_TruncatedExactlyWhereInputEndsInside :
    (cutUnloadedStart.st = .run ∧ cutUnloadedStart.cur < cutUnloadedStart.inputLen ∧
      cutUnloadedStart.inputLen < cutUnloadedStart.cur + requiredLength (cutUnloadedStart.buf.readRun cutUnloadedStart.cur 2) ∧
      step cutUnloadedStart = .next (cutUnloadedStart.raise .truncated)) ∧
    (movStart.st = .run ∧ movStart.cur < movStart.inputLen ∧
      ¬ movStart.inputLen < movStart.cur + requiredLength (movStart.buf.readRun movStart.cur 2)) :=
  ⟨⟨rfl, by decide, by decide, rfl⟩, rfl, by decide, by decide⟩

end Sys2Proof.Tests
end

section
/-! The state elements (10_state.md): the status and record-kind codes, the fault registers, and the verbosity bit. -/

namespace Sys2Proof.Machine

/-! ### The fault registers -/

/-- A step enters FAULT and sets `fault_pos` to the opcode's offset, or it stays out of FAULT and leaves both fault
registers (R25, R26). -/
theorem step_faultRegisters {s t : State} (h : step s = .next t) :
    (t.st = .fault ∧ t.faultPos = s.cur) ∨
      (t.st ≠ .fault ∧ t.faultKind = s.faultKind ∧ t.faultPos = s.faultPos) := by
  obtain ⟨hr, ⟨-, rfl⟩ | ⟨-, _, _, r, -, -, -, rfl⟩ | ⟨-, _, -, -, -, rfl⟩ | ⟨-, _, -, -, -, rfl⟩ | ⟨-, -, rfl⟩⟩ :=
    step_effects h
  · exact .inr ⟨by simp, rfl, rfl⟩
  · exact .inr ⟨by simp [hr], rfl, rfl⟩
  · exact .inr ⟨by simp [hr], rfl, rfl⟩
  · exact .inl ⟨rfl, rfl⟩
  · exact .inl ⟨rfl, rfl⟩

/-- The host's writes leave the fault registers: of its actions only reset and start touch them. -/
theorem hostAct_keeps_faultRegisters {s t : State} {a : HostAction} (hreset : a ≠ .reset) (hstart : a ≠ .start)
    (h : hostAct a s = .next t) : t.faultKind = s.faultKind ∧ t.faultPos = s.faultPos := by
  obtain ⟨ha, -⟩ | ⟨ha, -⟩ | ⟨ha, -⟩ | ⟨-, ⟨_, _, -, -, rfl⟩ | ⟨_, -, -, rfl⟩ | ⟨_, -, rfl⟩ | ⟨_, -, rfl⟩⟩ :=
    hostAct_cases h
  · exact absurd ha hreset
  · exact absurd ha hstart
  · exact absurd ha hstart
  all_goals exact ⟨rfl, rfl⟩

/-- Settles O16: a step's effects decide which of them writes the fault registers. -/
theorem faultRegistersWrittenOnlyByFaults : Obligations.FaultRegistersWrittenOnlyByFaults := by
  refine ⟨rfl, rfl, rfl, by intro k; cases k <;> decide, fun s t h hf => ?_, fun s t h hf => ?_, fun s t h => ?_,
    fun s t hi h => ?_, fun s t a hreset hstart h => hostAct_keeps_faultRegisters hreset hstart h⟩
  · exact ((step_faultRegisters h).resolve_left fun hl => hf hl.1).2
  · exact ((step_faultRegisters h).resolve_right fun hr => hr.1 hf).2
  · obtain rfl : s.hostReset = t := by simpa [hostAct] using h
    exact ⟨rfl, rfl⟩
  · obtain rfl : s.started = t := by simpa [hostAct, hi] using h
    exact ⟨rfl, rfl⟩

/-! ### The verbosity bit -/

/-- The state with another value of `cfg_verbose` (R28). -/
def State.setVerbose (s : State) (v : Bool) : State := { s with cfgVerbose := v }

@[simp] theorem State.setVerbose_cur (s : State) (v : Bool) : (s.setVerbose v).cur = s.cur := rfl

theorem complete_setVerbose {r : Record} {s t : State} (v : Bool) (h : complete r s = .next t) :
    complete r (s.setVerbose v) = .next (t.setVerbose v) := by
  rcases Nat.lt_or_ge s.inputLen (s.cur + r.len) with hlt | hge
  · obtain rfl : s.raise .truncated = t := by simpa using (complete_short hlt).symm.trans h
    exact complete_short hlt
  · obtain rfl : s.commit r = t := by simpa using (complete_fits hge).symm.trans h
    exact complete_fits hge

theorem execUnknownOpcode_setVerbose {s t : State} (v : Bool) (h : execUnknownOpcode s = .next t) :
    execUnknownOpcode (s.setVerbose v) = .next (t.setVerbose v) := by
  cases ha : s.cfgUnknownAbort
  · obtain rfl : s.skip = t := by simpa using (execUnknownOpcode_skip ha).symm.trans h
    exact execUnknownOpcode_skip ha
  · obtain rfl : s.raise .unknownOpcode = t := by simpa using (execUnknownOpcode_abort ha).symm.trans h
    exact execUnknownOpcode_abort ha

/-- No instruction reads or writes the verbosity bit. -/
theorem exec_setVerbose {i : Instr} {s t : State} (v : Bool) (h : exec i s = .next t) :
    exec i (s.setVerbose v) = .next (t.setVerbose v) := by
  rw [exec_eq] at h ⊢
  rw [State.setVerbose_cur]
  cases hrec : recordOf i s.cur with
  | none =>
    rw [hrec] at h
    exact execUnknownOpcode_setVerbose v h
  | some r =>
    simp only [hrec] at h ⊢
    split at h
    · next hk => exact (if_pos hk).trans (complete_setVerbose v h)
    · next hk =>
      obtain rfl : s.commit r = t := by simpa using h
      exact if_neg hk

/-- A step commutes with changing the verbosity bit. -/
theorem step_setVerbose {s t : State} (v : Bool) (h : step s = .next t) :
    step (s.setVerbose v) = .next (t.setVerbose v) := by
  obtain ⟨hr, ⟨hc, rfl⟩ | ⟨hc, i, hf, he⟩ | ⟨hc, hf, rfl⟩⟩ := step_cases h
  · exact step_at_end hr hc
  · exact (step_of_fetch (s := s.setVerbose v) hr hc hf).trans (exec_setVerbose v he)
  · exact step_of_truncated (s := s.setVerbose v) hr hc hf

/-- Settles O49: `step_setVerbose`, and the two cases of a host write. -/
theorem verbosityAffectsTextOnly : Obligations.VerbosityAffectsTextOnly :=
  ⟨rfl, fun _ _ hr => if_pos hr, fun _ _ hr => (hostWrite_next_iff _ _ _ _).2 ⟨hr, rfl, rfl⟩,
    fun _ _ v h => step_setVerbose v h⟩

/-! ### The status codes -/

/-- Settles O17: a step that has a next state starts in RUN. -/
theorem statusCodesAndEnabledSteps : Obligations.StatusCodesAndEnabledSteps := by
  refine ⟨rfl, rfl, rfl, rfl, rfl, fun s t h => ?_⟩
  obtain ⟨hr, -⟩ := step_cases h
  rw [hr]
  rfl

/-! ### The record kinds -/

/-- The opcode of `100010dw` holds the bits that select its row (R71). -/
theorem rmRegInstr_opcode (d w : BitVec 1) (reg : BitVec 3) (m : RmForm) :
    (rmRegInstr d w reg m).opcode = 0b100010#6 ++ d ++ w := by
  rcases widthBit_cases d with rfl | rfl <;> rcases widthBit_cases w with rfl | rfl <;> rfl

/-- A decoded instruction has the opcode byte that it was decoded from. -/
theorem decode_opcode {op : Byte} {bs rest : List Byte} {i : Instr} (h : decode (op :: bs) = .ok (i, rest)) :
    i.opcode = op := by
  rw [decode_cons] at h
  split at h
  · next hk =>
    obtain ⟨reg, m, -, rfl, -⟩ := (decodeRmReg_ok_iff _ _ _ _).1 h
    rw [rmRegInstr_opcode, ← opcode_of_movRmReg op hk]
  · next hk =>
    rw [opcode_of_movImmRm op hk]
    rcases widthBit_cases (opW op) with hw | hw
    · obtain ⟨ign, m, imm, -, rfl, -⟩ := (decodeImmRm_byte_ok_iff op hw _ _ _).1 h
      rw [hw]
      rfl
    · obtain ⟨ign, m, imm, -, rfl, -⟩ := (decodeImmRm_word_ok_iff op hw _ _ _).1 h
      rw [hw]
      rfl
  · next hk =>
    obtain ⟨imm, -, rfl, -⟩ := (decodeImmReg_ok_iff _ _ _ _).1 h
    exact (opcode_of_movImmReg op hk).symm
  · next hk =>
    cases h
    exact (opcode_of_phMemToAcc op hk).symm
  · next hk =>
    cases h
    exact (opcode_of_phAccToMem op hk).symm
  · next hk =>
    cases h
    exact (opcode_of_phRmToSreg op hk).symm
  · next hk =>
    cases h
    exact (opcode_of_phSregToRm op hk).symm
  · cases h
    rfl

/-- An instruction's record has the kind that its opcode classifies to (R32, R73). -/
theorem classify_opcode_of_recordOf {i : Instr} {p : Nat} {r : Record} (h : recordOf i p = some r) :
    classify i.opcode = some r.kind := by
  cases i <;> cases h
  case movRImm w reg imm => exact (movImmReg_opcode_fields w reg).1
  case phMemToAcc w => exact (phMemToAcc_opcode_fields w).1
  case phAccToMem w => exact (phAccToMem_opcode_fields w).1
  all_goals
    simp only [Instr.opcode, recordRmReg, recordImmRm, recordPlaceholder]
    decide

/-- Settles O50: decoding keeps the opcode byte, and the record's kind is its class. -/
theorem recordKindCodes : Obligations.RecordKindCodes := by
  refine ⟨rfl, rfl, rfl, rfl, rfl, rfl, rfl, by intro k; cases k <;> decide, fun bs rest i p r hd hr => ?_⟩
  cases bs with
  | nil => cases hd
  | cons op bs =>
    obtain rfl := decode_opcode hd
    exact classify_opcode_of_recordOf hr

end Sys2Proof.Machine
end

section
/-! The block's writes (20_memory.md): what a step writes (R54), and how the records appear and freeze (R62). -/

namespace Sys2Proof.Machine

/-! ### What a step writes -/

/-- The buffer, `L` and the two configuration bits are no step's to write (R54). -/
theorem step_frame {s t : State} (h : step s = .next t) :
    t = { s with cur := t.cur, st := t.st, faultKind := t.faultKind, faultPos := t.faultPos, out := t.out } := by
  obtain ⟨-, ⟨-, rfl⟩ | ⟨-, _, _, r, -, -, -, rfl⟩ | ⟨-, _, -, -, -, rfl⟩ | ⟨-, _, -, -, -, rfl⟩ | ⟨-, -, rfl⟩⟩ :=
    step_effects h
  all_goals rfl

theorem step_buf {s t : State} (h : step s = .next t) : t.buf = s.buf := by rw [step_frame h]

/-- Settles O15: no step writes outside its frame, and the buffer lies outside it. -/
theorem stepWritesOnlyItsRegistersAndOutput : Obligations.StepWritesOnlyItsRegistersAndOutput :=
  fun _ _ h => ⟨fun a => by rw [step_buf h], step_frame h⟩

/-! ### The records of a run -/

/-- Only the commit, after which the block is still in RUN, appends a record. -/
theorem step_out {s t : State} (h : step s = .next t) :
    t.out = s.out ∨ (t.st = .run ∧ ∃ r, t.out = s.out ++ [r]) := by
  obtain ⟨hr, ⟨-, rfl⟩ | ⟨-, _, _, r, -, -, -, rfl⟩ | ⟨-, _, -, -, -, rfl⟩ | ⟨-, _, -, -, -, rfl⟩ | ⟨-, -, rfl⟩⟩ :=
    step_effects h
  · exact .inl (State.finish_out s)
  · exact .inr ⟨hr, r, State.commit_out s r⟩
  · exact .inl (State.skip_out s)
  · exact .inl (State.raise_out s _)
  · exact .inl (State.raise_out s _)

/-- Outside IDLE, where start begins a run, no host action but reset changes the status or the records. -/
theorem hostAct_keeps_st_out {a : HostAction} {s t : State} (hidle : s.st ≠ .idle) (hreset : a ≠ .reset)
    (h : hostAct a s = .next t) : t.st = s.st ∧ t.out = s.out := by
  obtain ⟨ha, -⟩ | ⟨-, hi, -⟩ | ⟨-, -, rfl⟩ | ⟨-, ⟨_, _, -, -, rfl⟩ | ⟨_, -, -, rfl⟩ | ⟨_, -, rfl⟩ | ⟨_, -, rfl⟩⟩ :=
    hostAct_cases h
  · exact absurd ha hreset
  · exact absurd hi hidle
  all_goals exact ⟨rfl, rfl⟩

/-- Once a run has ended, no event but reset changes the status or the records. -/
theorem eventStep_keeps_st_out {e : Event} {s t : State} (hend : s.st = .done ∨ s.st = .fault)
    (hreset : e ≠ .host .reset) (h : eventStep e s = .next t) : t.st = s.st ∧ t.out = s.out := by
  cases e with
  | decoderStep =>
    obtain ⟨hrun, -⟩ := step_cases h
    simp [hrun] at hend
  | host a =>
    have hidle : s.st ≠ .idle := by rcases hend with hs | hs <;> simp [hs]
    exact hostAct_keeps_st_out hidle (fun ha => hreset (congrArg Event.host ha)) h

/-- After the end of a run the status and the records stay until reset, whatever the events (R62). -/
theorem runEvents_keeps_st_out {events : List Event} {s t : State} (hend : s.st = .done ∨ s.st = .fault)
    (hreset : .host .reset ∉ events) (h : runEvents events s = .next t) : t.st = s.st ∧ t.out = s.out := by
  refine runEvents_induct (P := fun u => u.st = s.st ∧ u.out = s.out) (fun e he u v hu hv => ?_) ⟨rfl, rfl⟩ h
  obtain ⟨hst, hout⟩ := hu
  have hne : e ≠ .host .reset := fun heq => hreset (heq ▸ he)
  obtain ⟨hst', hout'⟩ := eventStep_keeps_st_out (hst.symm ▸ hend) hne hv
  exact ⟨hst'.trans hst, hout'.trans hout⟩

/-- Settles O14: a step that appends a record stays in RUN, and after the end of a run the records stay. -/
theorem outputGrowsInOrderAndFreezes : Obligations.OutputGrowsInOrderAndFreezes := by
  refine ⟨fun s t h => (step_out h).imp_right And.right, fun s t h hend => ?_,
    fun events s t hend hreset h => (runEvents_keeps_st_out hend hreset h).2⟩
  obtain hout | ⟨hrun, -⟩ := step_out h
  · exact hout
  · simp [hrun] at hend

end Sys2Proof.Machine
end

section
/-! The encoding (30_encoding.md): the length of an instruction (R75), the don't-care bits (R79, R144), and the
classification table (R73). -/

namespace Sys2Proof.Machine

/-! ### The length by the first bytes -/

theorem requiredLength_movRmReg {op : Byte} (hk : classify op = some .movRmReg) (modrm : Byte) (bs : List Byte) :
    requiredLength (op :: modrm :: bs) = 2 + dispLen (modeOfMod (modrmMod modrm)) (modrmRm modrm) := by
  simp [requiredLength, hk]

theorem requiredLength_movImmRm {op : Byte} (hk : classify op = some .movImmRm) (modrm : Byte) (bs : List Byte) :
    requiredLength (op :: modrm :: bs) =
      2 + dispLen (modeOfMod (modrmMod modrm)) (modrmRm modrm) + immLen (opW op) := by
  simp [requiredLength, hk]

theorem requiredLength_movImmReg {op : Byte} (hk : classify op = some .movImmReg) (bs : List Byte) :
    requiredLength (op :: bs) = 1 + immLen (opRegW op) := by
  simp [requiredLength, hk]

/-- The kinds that read nothing after the opcode byte: the placeholder forms and the unknown opcodes. -/
theorem requiredLength_of_opcode_only {op : Byte}
    (hk : classify op = some .phMemToAcc ∨ classify op = some .phAccToMem ∨ classify op = some .phRmToSreg ∨
      classify op = some .phSregToRm ∨ classify op = none) (bs : List Byte) : requiredLength (op :: bs) = 1 := by
  rcases hk with hk | hk | hk | hk | hk <;> simp [requiredLength, hk]

/-! ### The length of what is decoded -/

/-- The ModRM byte of an r/m operand names the displacement length of that operand. -/
theorem dispLen_modrmByte (reg : BitVec 3) (m : RmForm) :
    dispLen (modeOfMod (modrmMod (modrmByte m.mode.modBits reg m.rm))) (modrmRm (modrmByte m.mode.modBits reg m.rm)) =
      dispLen m.mode m.rm := by
  obtain ⟨hmod, -, hrm⟩ := fields_modrmByte m.mode.modBits reg m.rm
  rw [hmod, hrm, modeOfMod_modBits]

theorem requiredLength_movRmReg_rmBytes {op : Byte} (hk : classify op = some .movRmReg) (reg : BitVec 3) (m : RmForm)
    (bs : List Byte) : requiredLength (op :: (rmBytes reg m ++ bs)) = 2 + dispLen m.mode m.rm :=
  (requiredLength_movRmReg hk _ _).trans (by rw [dispLen_modrmByte])

theorem requiredLength_movImmRm_rmBytes {op : Byte} (hk : classify op = some .movImmRm) (reg : BitVec 3) (m : RmForm)
    (bs : List Byte) : requiredLength (op :: (rmBytes reg m ++ bs)) = 2 + dispLen m.mode m.rm + immLen (opW op) :=
  (requiredLength_movImmRm hk _ _).trans (by rw [dispLen_modrmByte])

theorem rmRegInstr_length (d w : BitVec 1) (reg : BitVec 3) (m : RmForm) :
    (rmRegInstr d w reg m).length = 2 + dispLen m.mode m.rm := by
  rcases widthBit_cases d with rfl | rfl <;> rcases widthBit_cases w with rfl | rfl <;> rfl

/-- A decoded instruction has the length that R75 gives its first bytes. -/
theorem length_eq_requiredLength {bs rest : List Byte} {i : Instr} (h : decode bs = .ok (i, rest)) :
    i.length = requiredLength bs := by
  cases bs with
  | nil => cases h
  | cons op bs =>
    rw [decode_cons] at h
    split at h
    · next hk =>
      obtain ⟨reg, m, -, rfl, rfl⟩ := (decodeRmReg_ok_iff _ _ _ _).1 h
      rw [rmRegInstr_length, requiredLength_movRmReg_rmBytes hk]
    · next hk =>
      rcases widthBit_cases (opW op) with hw | hw
      · obtain ⟨ign, m, imm, -, rfl, rfl⟩ := (decodeImmRm_byte_ok_iff op hw _ _ _).1 h
        rw [requiredLength_movImmRm_rmBytes hk, hw]
        rfl
      · obtain ⟨ign, m, imm, -, rfl, rfl⟩ := (decodeImmRm_word_ok_iff op hw _ _ _).1 h
        rw [requiredLength_movImmRm_rmBytes hk, hw]
        rfl
    · next hk =>
      obtain ⟨imm, -, rfl, -⟩ := (decodeImmReg_ok_iff _ _ _ _).1 h
      exact (requiredLength_movImmReg hk bs).symm
    all_goals
      next hk =>
      cases h
      exact (requiredLength_of_opcode_only (by simp [hk]) _).symm

/-! ### Truncation, and the unknown opcode -/

/-- Decoding is truncated exactly where fewer bytes stand than R75 asks for. -/
theorem decode_truncated_iff (op : Byte) (bs : List Byte) :
    decode (op :: bs) = .error .truncated ↔ (op :: bs).length < requiredLength (op :: bs) := by
  rw [decode_cons, List.length_cons]
  split
  · next hk =>
    rw [decodeRmReg_error_iff]
    simp only [requiredLength, hk, true_and]
    omega
  · next hk =>
    rw [decodeImmRm_error_iff]
    simp only [requiredLength, hk, true_and]
    omega
  · next hk =>
    rw [decodeImmReg_error_iff, requiredLength_movImmReg hk]
    simp only [true_and]
    omega
  all_goals
    next hk =>
    rw [requiredLength_of_opcode_only (by simp [hk])]
    simp

/-- An unknown opcode emits nothing; it consumes its byte under skip, and none under abort (R200, R201). -/
theorem exec_unknownOpcode_out_cur {op : Byte} {s t : State} (h : exec (.unknownOpcode op) s = .next t) :
    t.out = s.out ∧ t.cur = if s.cfgUnknownAbort then s.cur else s.cur + 1 := by
  change execUnknownOpcode s = .next t at h
  cases ha : s.cfgUnknownAbort
  · obtain rfl : s.skip = t := by simpa using (execUnknownOpcode_skip ha).symm.trans h
    exact ⟨State.skip_out s, State.skip_cur s⟩
  · obtain rfl : s.raise .unknownOpcode = t := by simpa using (execUnknownOpcode_abort ha).symm.trans h
    exact ⟨State.raise_out s _, State.raise_cur s _⟩

/-- Settles O23: the lengths by the first bytes, what decoding consumes, and truncation below it. -/
theorem decodeConsumesTabulatedLength : Obligations.DecodeConsumesTabulatedLength :=
  ⟨fun _ => ⟨rfl, rfl, rfl, rfl⟩, ⟨rfl, rfl⟩,
    fun _ modrm bs => ⟨fun hk => requiredLength_movRmReg hk modrm bs, fun hk => requiredLength_movImmRm hk modrm bs⟩,
    fun _ bs => ⟨fun hk => requiredLength_movImmReg hk bs, fun hk => requiredLength_of_opcode_only hk bs⟩,
    fun _ _ _ h => ⟨length_eq_requiredLength h, decode_length h⟩, decode_truncated_iff,
    fun _ _ _ h => exec_unknownOpcode_out_cur h⟩

/-! ### The don't-care bits -/

theorem decode_movImmRm {op : Byte} (hk : classify op = some .movImmRm) (bs : List Byte) :
    decode (op :: bs) = decodeImmRm op bs := by
  rw [decode_cons, hk]

/-- C6 decodes from its encoding at every value of the don't-care field, whatever bytes follow. -/
theorem decode_encode_movRm8Imm8 (ign : BitVec 3) {m : RmForm} (hm : m.wellFormed = true) (imm : Byte)
    (more : List Byte) :
    decode (encode (.movRm8Imm8 ign m imm) ++ more) = .ok (.movRm8Imm8 ign m imm, more) :=
  (decode_movImmRm (op := 0xC6#8) (by decide) _).trans
    ((decodeImmRm_byte_ok_iff 0xC6#8 (by decide) _ _ _).2
      ⟨ign, m, imm, hm, rfl, List.append_assoc (rmBytes ign m) [imm] more⟩)

/-- C7 decodes from its encoding at every value of the don't-care field, whatever bytes follow. -/
theorem decode_encode_movRm16Imm16 (ign : BitVec 3) {m : RmForm} (hm : m.wellFormed = true) (imm : Half)
    (more : List Byte) :
    decode (encode (.movRm16Imm16 ign m imm) ++ more) = .ok (.movRm16Imm16 ign m imm, more) :=
  (decode_movImmRm (op := 0xC7#8) (by decide) _).trans
    ((decodeImmRm_word_ok_iff 0xC7#8 (by decide) _ _ _).2
      ⟨ign, m, imm, hm, rfl, List.append_assoc (rmBytes ign m) (bytesOfHalf imm) more⟩)

/-- The records of C6 and C7 hold no `reg` field (R144). -/
theorem recordOf_movImmRm_reg {i : Instr} {p : Nat} {r : Record} (h : recordOf i p = some r)
    (hk : r.kind = .movImmRm) : r.reg = none := by
  cases i <;> cases h
  case movRm8Imm8 => rfl
  case movRm16Imm16 => rfl
  all_goals cases hk

/-- Settles O27: the don't-care field stands in no length and no meaning, and the low bit of A0-A3 in the opcode only. -/
theorem dontCareBitsChangeNothing : Obligations.DontCareBitsChangeNothing := by
  refine ⟨fun ign _ m imm s hm => ⟨?_, rfl, rfl⟩, fun ign _ m imm s hm => ⟨?_, rfl, rfl⟩,
    fun _ _ _ h hk => recordOf_movImmRm_reg h hk, fun i j p r r' hij hr hr' => ?_⟩
  · simpa using decode_encode_movRm8Imm8 ign hm imm []
  · simpa using decode_encode_movRm16Imm16 ign hm imm []
  · obtain ⟨w, w', ⟨rfl, rfl⟩ | ⟨rfl, rfl⟩⟩ := hij
    all_goals
      cases hr
      cases hr'
      rfl

/-! ### The classification table -/

/-- A search of the classification table, one row at a time (R73). -/
theorem kind_of_find?_cons (row : OpcodeRow) (rows : List OpcodeRow) (op : Byte) :
    ((row :: rows).find? (·.accepts op)).map (·.kind) =
      if op &&& row.mask = row.pattern then some row.kind else (rows.find? (·.accepts op)).map (·.kind) := by
  by_cases h : op &&& row.mask = row.pattern <;> simp [OpcodeRow.accepts, h]

/-- Two rows that one byte matches agree on the bits that both of them check. -/
theorem pattern_agree_of_accepts {row row' : OpcodeRow} {op : Byte} (h : row.accepts op = true)
    (h' : row'.accepts op = true) : row.pattern &&& row'.mask = row'.pattern &&& row.mask := by
  simp only [OpcodeRow.accepts, beq_iff_eq] at h h'
  rw [← h, ← h', BitVec.and_assoc, BitVec.and_assoc, BitVec.and_comm row.mask]

/-- Every two rows of R73 differ on a bit that both of them check. -/
theorem opcodeRows_differ :
    opcodeRows.Pairwise fun row row' => row.pattern &&& row'.mask ≠ row'.pattern &&& row.mask := by
  decide

theorem opcodeRows_filter_length_le_one (op : Byte) : (opcodeRows.filter (·.accepts op)).length ≤ 1 := by
  have hdiffer := opcodeRows_differ.filter (·.accepts op)
  have haccepts : ∀ row ∈ opcodeRows.filter (·.accepts op), row.accepts op = true := fun _ h => (List.mem_filter.1 h).2
  match hrows : opcodeRows.filter (·.accepts op) with
  | [] => simp [hrows]
  | [_] => simp [hrows]
  | row :: row' :: rows =>
    rw [hrows] at hdiffer haccepts
    have hne := List.rel_of_pairwise_cons hdiffer List.mem_cons_self
    exact absurd (pattern_agree_of_accepts (haccepts row (by simp)) (haccepts row' (by simp))) hne

/-- Settles O18: the search goes through the rows in order, and no two of them match one byte. -/
theorem classifierIsThePriorityTable : Obligations.ClassifierIsThePriorityTable := by
  refine ⟨fun op => ?_, opcodeRows_filter_length_le_one⟩
  simp only [classify, opcodeRows, kind_of_find?_cons, List.find?_nil, Option.map_none]

end Sys2Proof.Machine
end

section
/-! The decode cycle (40_decode_cycle.md): when a step is enabled and what it appends (R100), and that decoding depends on
the instruction's bytes and the abort setting only (R107). -/

namespace Sys2Proof.Machine

/-! ### One step, at most one instruction -/

/-- A step appends nothing, or the record of one instruction, whose length it advances by. -/
theorem step_out_recordOf {s t : State} (h : step s = .next t) :
    t.out = s.out ∨ ∃ r i, recordOf i s.cur = some r ∧ t.out = s.out ++ [r] ∧ t.cur = s.cur + i.length := by
  obtain ⟨-, ⟨-, rfl⟩ | ⟨-, _, i, r, -, -, hr, rfl⟩ | ⟨-, _, -, -, -, rfl⟩ | ⟨-, _, -, -, -, rfl⟩ | ⟨-, -, rfl⟩⟩ :=
    step_effects h
  · exact .inl (State.finish_out s)
  · exact .inr ⟨r, i, hr, State.commit_out s r, by rw [State.commit_cur, recordOf_len hr]⟩
  · exact .inl (State.skip_out s)
  · exact .inl (State.raise_out s _)
  · exact .inl (State.raise_out s _)

/-- Settles O6: only RUN has a next state, and inside the input it always has one. -/
theorem stepEnabledExactlyInRun : Obligations.StepEnabledExactlyInRun :=
  ⟨fun _ hc => ⟨fun ⟨_, h⟩ => (step_cases h).1, fun hr => step_has_next hr hc⟩, fun _ hr => step_not_run hr,
    fun _ _ h => step_out_recordOf h⟩

/-! ### Decoding depends on the instruction's bytes -/

/-- A step runs the instruction whose bytes stand at the cursor. -/
theorem step_of_bytes {s : State} {bs : List Byte} {i : Instr} (hr : s.st = .run) (hb : s.bytesAtCursor bs)
    (hd : decode bs = .ok (i, [])) : step s = exec i s := by
  have hlen : bs.length = i.length := by simpa using decode_length hd
  have hpos := length_pos i
  have hfit := hb.1
  exact step_of_fetch hr (by omega) (State.fetch_of_bytes hb hd)

/-- A step raises TRUNCATED where the input ends inside the instruction at the cursor. -/
theorem step_of_truncated_bytes {s : State} {bs : List Byte} (hr : s.st = .run) (hb : s.bytesAtCursor bs)
    (he : s.cur + bs.length = s.inputLen) (hd : decode bs = .error .truncated) :
    step s = .next (s.raise .truncated) := by
  have hne : bs ≠ [] := by
    rintro rfl
    cases hd
  have hpos := List.length_pos_of_ne_nil hne
  exact step_of_truncated hr (by omega) (State.fetch_truncated_of_bytes hb he hd)

/-- The record of an instruction at `p` already holds the offset `p`. -/
theorem recordOf_at_self {i : Instr} {p : Nat} {r : Record} (h : recordOf i p = some r) : r.at p = r := by
  rw [← recordOf_pos h]
  rfl

/-- Where all of an instruction's bytes lie below `L`, its effect on the status, the cursor and the records depends on the
state only through the status, the abort setting and the offset (R107). -/
theorem exec_agree (i : Instr) {s₁ s₂ : State} (hst : s₁.st = s₂.st)
    (habort : s₁.cfgUnknownAbort = s₂.cfgUnknownAbort) (hfit₁ : s₁.cur + i.length ≤ s₁.inputLen)
    (hfit₂ : s₂.cur + i.length ≤ s₂.inputLen) :
    ∃ t₁ t₂ n rs, exec i s₁ = .next t₁ ∧ exec i s₂ = .next t₂ ∧ t₁.st = t₂.st ∧
      t₁.cur = s₁.cur + n ∧ t₂.cur = s₂.cur + n ∧
      t₁.out = s₁.out ++ List.map (fun r : Record => r.at s₁.cur) rs ∧
      t₂.out = s₂.out ++ List.map (fun r : Record => r.at s₂.cur) rs := by
  cases hrec₁ : recordOf i s₁.cur with
  | some r =>
    have hrec₂ : recordOf i s₂.cur = some (r.at s₂.cur) := by rw [recordOf_at i s₁.cur, hrec₁, Option.map_some]
    have hlen : r.len = i.length := recordOf_len hrec₁
    refine ⟨_, _, i.length, [r], exec_fits hrec₁ hfit₁, exec_fits hrec₂ hfit₂, hst, ?_, ?_, ?_, ?_⟩
    · rw [State.commit_cur, hlen]
    · rw [State.commit_cur, recordOf_len hrec₂]
    · simp [recordOf_at_self hrec₁]
    · simp
  | none =>
    obtain ⟨op, rfl⟩ := (recordOf_eq_none_iff i s₁.cur).1 hrec₁
    cases habort₁ : s₁.cfgUnknownAbort with
    | false =>
      exact ⟨s₁.skip, s₂.skip, 1, [], execUnknownOpcode_skip habort₁, execUnknownOpcode_skip (habort ▸ habort₁), hst,
        rfl, rfl, by simp, by simp⟩
    | true =>
      exact ⟨s₁.raise .unknownOpcode, s₂.raise .unknownOpcode, 0, [], execUnknownOpcode_abort habort₁,
        execUnknownOpcode_abort (habort ▸ habort₁), rfl, rfl, rfl, by simp, by simp⟩

/-- Settles O26: both steps run the decoded instruction and `exec_agree` compares them, or both raise TRUNCATED. -/
theorem decodingDependsOnItsBytesOnly : Obligations.DecodingDependsOnItsBytesOnly := by
  refine ⟨fun s₁ s₂ bs i hr₁ hr₂ habort hb₁ hb₂ hd => ?_, fun s₁ s₂ bs hr₁ hr₂ hb₁ hb₂ he₁ he₂ hd => ?_⟩
  · have hlen : bs.length = i.length := by simpa using decode_length hd
    rw [step_of_bytes hr₁ hb₁ hd, step_of_bytes hr₂ hb₂ hd]
    exact exec_agree i (hr₁.trans hr₂.symm) habort (hlen ▸ hb₁.1) (hlen ▸ hb₂.1)
  · exact ⟨_, _, step_of_truncated_bytes hr₁ hb₁ he₁ hd, step_of_truncated_bytes hr₂ hb₂ he₂ hd, rfl, rfl, rfl, rfl⟩

end Sys2Proof.Machine
end

section
/-! MOV register/memory to/from register (41_mov_rm_reg.md), and which operands carry a width keyword (R125, R145,
R162). -/

namespace Sys2Proof.Machine

/-! ### The keyword of an operand -/

/-- An r/m operand carries the keyword it is given in memory, and none in a register (R214). -/
@[simp] theorem rmOperand_keyword (w : BitVec 1) (kw : Option Width) (m : RmForm) :
    (rmOperand w kw m).keyword = if m.mode = .reg then none else kw := by
  cases m <;> rfl

/-! ### The operands of a record, by its kind -/

/-- The two operands of 88-8B, in either direction, carry no keyword (R125). -/
theorem recordRmReg_operands (op : Byte) (reg : BitVec 3) (m : RmForm) (p : Nat) :
    ∃ dst src, (recordRmReg op reg m p).dst = some dst ∧ (recordRmReg op reg m p).src = some src ∧
      dst.keyword = none ∧ src.keyword = none := by
  have hreg : (Operand.reg (regKey (opW op) reg)).keyword = none := rfl
  have hrm : (rmOperand (opW op) none m).keyword = none := by simp
  exact ⟨_, _, rfl, rfl, by split <;> assumption, by split <;> assumption⟩

/-- The destination of C6 and C7 carries the keyword of `w` where it is in memory, and the source is the immediate
(R145). -/
theorem recordImmRm_operands (op : Byte) (m : RmForm) (imm : Half) (p : Nat) :
    ∃ dst v width w, (recordImmRm op m imm p).dst = some dst ∧ (recordImmRm op m imm p).src = some (.imm v width) ∧
      (recordImmRm op m imm p).w = some w ∧
      dst.keyword =
        if (recordImmRm op m imm p).mode = some .reg then none else if w = 0#1 then some .byte else some .word := by
  refine ⟨_, _, _, _, rfl, rfl, rfl, ?_⟩
  rw [rmOperand_keyword, widthOf, apply_ite some]
  simp only [recordImmRm, Option.some.injEq]

/-- A register/memory record is that of 88-8B. -/
theorem eq_recordRmReg_of_recordOf {i : Instr} {p : Nat} {r : Record} (h : recordOf i p = some r)
    (hk : r.kind = .movRmReg) : ∃ op reg m, r = recordRmReg op reg m p := by
  cases i <;> cases h
  case movRm8R8 | movRm16R16 | movR8Rm8 | movR16Rm16 => exact ⟨_, _, _, rfl⟩
  all_goals cases hk

/-- An immediate-to-register/memory record is that of C6 or C7. -/
theorem eq_recordImmRm_of_recordOf {i : Instr} {p : Nat} {r : Record} (h : recordOf i p = some r)
    (hk : r.kind = .movImmRm) : ∃ op m imm, r = recordImmRm op m imm p := by
  cases i <;> cases h
  case movRm8Imm8 | movRm16Imm16 => exact ⟨_, _, _, rfl⟩
  all_goals cases hk

/-- An immediate-to-register record is that of B0-BF. -/
theorem eq_recordImmReg_of_recordOf {i : Instr} {p : Nat} {r : Record} (h : recordOf i p = some r)
    (hk : r.kind = .movImmReg) : ∃ op imm, r = recordImmReg op imm p := by
  cases i <;> cases h
  case movRImm => exact ⟨_, _, rfl⟩
  all_goals cases hk

/-- A record that a step appends is an instruction's. -/
theorem recordOf_of_step_appends {s t : State} {r : Record} (h : step s = .next t) (hout : t.out = s.out ++ [r]) :
    ∃ i, recordOf i s.cur = some r := by
  obtain hsame | ⟨r', i, hr, hout', -⟩ := step_out_recordOf h
  · simp [hsame] at hout
  · obtain rfl : r' = r := by simpa using hout'.symm.trans hout
    exact ⟨i, hr⟩

/-- Settles O42: the appended record is an instruction's, and its kind names the record function that built it. -/
theorem onlyImmediateToMemoryCarriesKeyword : Obligations.OnlyImmediateToMemoryCarriesKeyword := by
  intro s t r h hout
  obtain ⟨i, hr⟩ := recordOf_of_step_appends h hout
  refine ⟨fun hk => ?_, fun hk => ?_, fun hk => ?_⟩
  · obtain ⟨op, reg, m, rfl⟩ := eq_recordRmReg_of_recordOf hr hk
    exact ⟨rfl, recordRmReg_operands op reg m s.cur⟩
  · obtain ⟨op, m, imm, rfl⟩ := eq_recordImmRm_of_recordOf hr hk
    exact recordImmRm_operands op m imm s.cur
  · obtain ⟨op, imm, rfl⟩ := eq_recordImmReg_of_recordOf hr hk
    exact ⟨_, _, _, rfl, rfl⟩

end Sys2Proof.Machine
end

section
/-! The placeholder forms (44_placeholder_forms.md): one byte is consumed, and the record names it and its kind. -/

namespace Sys2Proof.Machine

/-- An instruction whose record is `Placeholder(k, op, p)` commits it, one byte on, wherever `L` lies (R180). -/
theorem exec_of_recordPlaceholder {i : Instr} {s : State} {k : Kind} {op : Byte}
    (hr : recordOf i s.cur = some (recordPlaceholder k op s.cur)) (hk : isMovKind k = false) :
    exec i s = .next { s with cur := s.cur + 1, out := s.out ++ [recordPlaceholder k op s.cur] } := by
  have hkind : ¬ isMovKind (recordPlaceholder k op s.cur).kind = true := by simp [recordPlaceholder, hk]
  rw [exec_eq, hr]
  exact if_neg hkind

/-- An instruction that is its opcode byte alone decodes from it whatever bytes follow. -/
theorem decode_cons_of_decode_opcode {op : Byte} {i : Instr} (h : decode [op] = .ok (i, [])) (bs : List Byte) :
    decode (op :: bs) = .ok (i, bs) :=
  decode_append h bs

/-- Settles O35: each form's record is a placeholder, and its opcode byte alone decodes. -/
theorem placeholderFormsRecordOneByte : Obligations.PlaceholderFormsRecordOneByte := by
  refine ⟨fun w s => exec_of_recordPlaceholder rfl rfl, fun w s => exec_of_recordPlaceholder rfl rfl,
    fun s => exec_of_recordPlaceholder rfl rfl, fun s => exec_of_recordPlaceholder rfl rfl,
    fun bs => ⟨?_, ?_, ?_, ?_, ?_, ?_⟩, rfl, rfl, rfl, rfl⟩
  all_goals exact decode_cons_of_decode_opcode (by decide) bs

end Sys2Proof.Machine
end

section
/-! The unknown opcodes (45_unknown_opcode.md): the bytes that no row matches, skipped or aborting as configured. -/

namespace Sys2Proof.Machine

/-- A byte that no row matches is an instruction by itself. -/
theorem decode_singleton_of_unknown {op : Byte} (hk : classify op = none) :
    decode [op] = .ok (.unknownOpcode op, []) := by
  rw [decode_cons, hk]

/-- Where a byte that no row matches stands at the cursor, the step is `Unknown(p)`. -/
theorem step_of_unknown_byte {s : State} {op : Byte} (hr : s.st = .run) (hb : s.bytesAtCursor [op])
    (hk : classify op = none) : step s = execUnknownOpcode s :=
  step_of_bytes hr hb (decode_singleton_of_unknown hk)

set_option maxRecDepth 4000 in
/-- R74 leaves 228 of the 256 byte values to no row. -/
theorem count_unknown_bytes :
    ((List.range 256).filter fun n => (classify (BitVec.ofNat 8 n)).isNone).length = 228 := by
  decide

/-- Settles O36: the skip moves the cursor alone, so after the last byte the next step stands at the end of the input. -/
theorem unknownOpcodeIsSkipped : Obligations.UnknownOpcodeIsSkipped := by
  refine ⟨fun _ s hskip => execUnknownOpcode_skip hskip, fun op => (classify_eq_none_iff op).symm, count_unknown_bytes,
    fun s op hr hskip hb hk => ⟨?_, fun hend => ?_⟩⟩
  · exact (step_of_unknown_byte hr hb hk).trans (execUnknownOpcode_skip hskip)
  · exact step_at_end (s := s.skip) hr hend

/-- Settles O37: `Unknown(p)` raises UNKNOWN_OPCODE at the cursor, for the instruction and for the byte alike. -/
theorem unknownOpcodeAborts : Obligations.UnknownOpcodeAborts :=
  ⟨fun _ _ habort => execUnknownOpcode_abort habort,
    fun _ _ hr habort hb hk => (step_of_unknown_byte hr hb hk).trans (execUnknownOpcode_abort habort)⟩

end Sys2Proof.Machine
end

section
/-! The addressing-mode resolver (46_addressing_resolver.md): the read of an r/m operand (R214), and the text of each kind
of operand (R219, R220, R222). -/

namespace Sys2Proof.Machine

/-! ### The addressing read -/

/-- The fields and bytes of a well-formed r/m operand are read back as that operand, and nothing more is read. -/
theorem readRmForm_dispBytes {m : RmForm} (hm : m.wellFormed = true) (rest : List Byte) :
    readRmForm m.mode.modBits m.rm (m.dispBytes ++ rest) = .ok (m, rest) :=
  (readRmForm_ok_iff _ _ _ _ _).2 ⟨hm, (modeOfMod_modBits m.mode).symm, rfl, rfl⟩

/-- The bytes of a 16-bit field in front of `rest` are its low byte, its high byte and `rest` (R51). -/
theorem bytesOfHalf_halfOfBytes_append (lo hi : Byte) (rest : List Byte) :
    bytesOfHalf (halfOfBytes lo hi) ++ rest = lo :: hi :: rest := by
  rw [bytesOfHalf_halfOfBytes]
  rfl

/-- Settles O40: each clause names the operand whose bytes stand in front; the last is the error half of the same read. -/
theorem readRmFollowsMod : Obligations.ReadRmFollowsMod := by
  refine ⟨fun w kw rm bs => ⟨.reg rm, ?reg, rfl, rfl⟩,
    fun w kw lo hi bs => ⟨.direct (halfOfBytes lo hi), ?direct, rfl, rfl⟩,
    fun w kw rm bs h6 => ⟨.based rm, ?based, rfl, rfl⟩,
    fun w kw rm b bs => ⟨.based8 rm b, ?based8, rfl, rfl⟩,
    fun w kw rm lo hi bs => ⟨.based16 rm (halfOfBytes lo hi), ?based16, rfl, rfl⟩,
    fun mod rm bs => (readRmForm_error_iff mod rm bs .truncated).trans (and_iff_right rfl)⟩
  case reg => exact readRmForm_dispBytes (m := .reg rm) rfl bs
  case direct =>
    rw [← bytesOfHalf_halfOfBytes_append]
    exact readRmForm_dispBytes (m := .direct _) rfl bs
  case based => exact readRmForm_dispBytes (m := .based rm) (bne_iff_ne.2 h6) bs
  case based8 => exact readRmForm_dispBytes (m := .based8 rm b) rfl bs
  case based16 =>
    rw [← bytesOfHalf_halfOfBytes_append]
    exact readRmForm_dispBytes (m := .based16 rm _) rfl bs

/-! ### The text of an operand -/

/-- Settles O45: each clause is the rendering's own case for that kind of operand and keyword. -/
theorem operandTextByKind : Obligations.OperandTextByKind := by
  refine ⟨fun ea => ?noKeyword, fun ea => ?byteKeyword, fun ea => ?wordKeyword, fun v width => ?immediate,
    fun key => ?register⟩
  case noKeyword => exact List.nil_append (memText ea)
  case byteKeyword | wordKeyword | immediate | register => rfl

end Sys2Proof.Machine
end

section
/-! The emitter (48_emitter.md): the text grows with the records, in whole lines (R259). -/

namespace Sys2Proof.Machine

/-! ### Where the text ends, and how it grows -/

/-- The text ends with the LF of its last record's line, or of the directive line where there is no record. -/
theorem textOf_getLast? (verbose : Bool) (out : List Record) : (textOf verbose out).getLast? = some lf := by
  obtain rfl | ⟨rs, r, rfl⟩ := List.eq_nil_or_concat' out
  · simp [textOf]
  · simp only [textOf_append, List.flatMap_singleton, recordText, ← List.append_assoc, List.getLast?_concat]

/-- Appended records only append to the text. -/
theorem textOf_prefix_of_prefix {out out' : List Record} (h : out <+: out') (verbose : Bool) :
    textOf verbose out <+: textOf verbose out' := by
  obtain ⟨rs, rfl⟩ := h
  exact ⟨rs.flatMap (recordText verbose), (textOf_append verbose out rs).symm⟩

/-! ### What a run keeps of the text's inputs -/

/-- No step leads to IDLE, where there is no text. -/
theorem step_not_idle {s t : State} (h : step s = .next t) : t.st ≠ .idle := by
  obtain ⟨hr, ⟨-, rfl⟩ | ⟨-, _, _, r, -, -, -, rfl⟩ | ⟨-, _, -, -, -, rfl⟩ | ⟨-, _, -, -, -, rfl⟩ | ⟨-, -, rfl⟩⟩ :=
    step_effects h
  all_goals simp [hr]

theorem step_cfgVerbose {s t : State} (h : step s = .next t) : t.cfgVerbose = s.cfgVerbose := by rw [step_frame h]

theorem step_out_prefix {s t : State} (h : step s = .next t) : s.out <+: t.out := by
  obtain hout | ⟨-, r, hout⟩ := step_out h
  · exact hout ▸ List.prefix_refl s.out
  · exact hout ▸ List.prefix_append s.out [r]

/-- A run from a state with a text ends in one with a text, and leaves the verbosity bit and the records it found. -/
theorem decodeRun_keeps_text_inputs {k : Nat} {s t : State} (hidle : s.st ≠ .idle) (h : decodeRun k s = .next t) :
    t.st ≠ .idle ∧ t.cfgVerbose = s.cfgVerbose ∧ s.out <+: t.out := by
  refine decodeRun_induct (P := fun s t => s.st ≠ .idle → t.st ≠ .idle ∧ t.cfgVerbose = s.cfgVerbose ∧ s.out <+: t.out)
    (fun s hs => ⟨hs, rfl, List.prefix_refl s.out⟩) (fun s t u _ hst ih _ => ?_) h hidle
  obtain ⟨hu, hverbose, hout⟩ := ih (step_not_idle hst)
  exact ⟨hu, hverbose.trans (step_cfgVerbose hst), (step_out_prefix hst).trans hout⟩

/-- Settles O48: both texts are `textOf` with the same verbosity bit, and the earlier records begin the later ones. -/
theorem textGrowsByWholeLines : Obligations.TextGrowsByWholeLines := by
  intro k s t hr h
  have hidle : s.st ≠ .idle := by simp [hr]
  obtain ⟨hidle', hverbose, hout⟩ := decodeRun_keeps_text_inputs hidle h
  refine ⟨textOf s.cfgVerbose s.out, textOf s.cfgVerbose t.out, State.text_of_started hidle, ?_,
    textOf_prefix_of_prefix hout s.cfgVerbose, textOf_getLast? _ _, textOf_getLast? _ _⟩
  rw [State.text_of_started hidle', hverbose]

end Sys2Proof.Machine
end

section
/-! The exceptions (60_exceptions.md): where TRUNCATED is raised (R271), fault entry (R273), and that FAULT is final
(R276). -/

namespace Sys2Proof.Machine

/-! ### The length by the first two bytes -/

/-- No byte after the first two plays a part in the length (R75). -/
theorem requiredLength_cons_cons (op b : Byte) (bs : List Byte) :
    requiredLength (op :: b :: bs) = requiredLength [op, b] := rfl

/-- Whether an instruction is longer than one byte is the opcode byte's to say: the ModRM byte gives the displacement
only. -/
theorem one_lt_requiredLength_cons_iff (op : Byte) (bs : List Byte) :
    1 < requiredLength (op :: bs) ↔ 1 < requiredLength [op] := by
  simp only [requiredLength]
  split
  case h_1 | h_2 => omega
  all_goals exact Iff.rfl

/-- A run of bytes falls short of its instruction's length exactly where the first two bytes there say so, also where the
second of them lies beyond the run. -/
theorem length_lt_requiredLength_readRun_iff (m : Memory) (a : Nat) {n : Nat} (hn : 0 < n) :
    n < requiredLength (m.readRun a n) ↔ n < requiredLength (m.readRun a 2) := by
  match n, hn with
  | 1, _ => exact (one_lt_requiredLength_cons_iff (m.read a) (m.readRun (a + 1) 1)).symm
  | n + 2, _ =>
    have hlen : requiredLength (m.readRun a (n + 2)) = requiredLength (m.readRun a 2) :=
      requiredLength_cons_cons (m.read a) (m.read (a + 1)) (m.readRun (a + 1 + 1) n)
    rw [hlen]

/-- Whether `n` bytes fall short of the instruction depends on those that are among its first two. -/
theorem length_lt_requiredLength_congr {m m' : Memory} {a n : Nat} (hn : 0 < n)
    (h : ∀ x, a ≤ x → x < a + n → x < a + 2 → m.read x = m'.read x) :
    n < requiredLength (m.readRun a 2) ↔ n < requiredLength (m'.readRun a 2) := by
  obtain rfl | hn2 : n = 1 ∨ 2 ≤ n := by omega
  · have hrun : m.readRun a 1 = m'.readRun a 1 := Memory.readRun_congr _ _ _ _ fun x h1 h2 => h x h1 h2 (by omega)
    rw [← length_lt_requiredLength_readRun_iff m a hn, ← length_lt_requiredLength_readRun_iff m' a hn, hrun]
  · rw [Memory.readRun_congr m m' a 2 fun x h1 h2 => h x h1 (by omega) h2]

/-! ### Where TRUNCATED is raised -/

theorem State.windowLen_pos {s : State} (hc : s.cur < s.inputLen) : 0 < s.windowLen := by
  rw [State.windowLen, maxInstrLen]
  omega

/-- The fetch is cut exactly where the window falls short of the length that it gives. -/
theorem State.fetch_truncated_iff_window_short {s : State} (hc : s.cur < s.inputLen) :
    s.fetch = .truncated ↔ s.windowLen < requiredLength s.window := by
  obtain ⟨op, bs, hw⟩ := List.exists_cons_of_length_pos (s.window_length.symm ▸ State.windowLen_pos hc)
  rw [← s.window_length, State.fetch, hw, ← decode_truncated_iff]
  cases hd : decode (op :: bs) with
  | ok => simp
  | error e => simp [(decode_error_kind hd).1]

/-- The fetch is cut exactly where `L` lies before the end of the instruction (R271): the window is as long as the longest
instruction or reaches `L`. -/
theorem State.fetch_truncated_iff {s : State} (hc : s.cur < s.inputLen) :
    s.fetch = .truncated ↔ s.inputLen < s.cur + requiredLength (s.buf.readRun s.cur 2) := by
  have hmax := requiredLength_le (s.buf.readRun s.cur 2)
  have hwin : s.windowLen = min maxInstrLen (s.inputLen - s.cur) := rfl
  calc s.fetch = .truncated
    _ ↔ s.windowLen < requiredLength s.window := State.fetch_truncated_iff_window_short hc
    _ ↔ s.windowLen < requiredLength (s.buf.readRun s.cur 2) :=
        length_lt_requiredLength_readRun_iff s.buf s.cur (State.windowLen_pos hc)
    _ ↔ s.inputLen < s.cur + requiredLength (s.buf.readRun s.cur 2) := by omega

/-- Of a step's effects only the truncated fetch is TRUNCATED's entry. -/
theorem step_raise_truncated_iff {s : State} (hr : s.st = .run) (hc : s.cur < s.inputLen) :
    step s = .next (s.raise .truncated) ↔ s.fetch = .truncated := by
  refine ⟨fun h => ?_, step_of_truncated hr hc⟩
  obtain ⟨-, ⟨hend, -⟩ | ⟨-, _, _, r, -, -, -, ht⟩ | ⟨-, _, -, -, -, ht⟩ | ⟨-, _, -, -, -, ht⟩ |
    ⟨-, ⟨bs, e, hb, he, hd⟩, -⟩⟩ := step_effects h
  · omega
  · simpa [hr] using congrArg State.st ht
  · simpa [hr] using congrArg State.st ht
  · simpa using congrArg State.faultKind ht
  · exact State.fetch_truncated_of_bytes hb he hd

/-- Settles O59: the fetch is cut exactly below the length by the first two bytes, of which only those below `L` count. -/
theorem truncatedExactlyWhereInputEndsInside : Obligations.TruncatedExactlyWhereInputEndsInside := by
  have hiff : ∀ s : State, s.st = .run → s.cur < s.inputLen →
      (step s = .next (s.raise .truncated) ↔ s.inputLen < s.cur + requiredLength (s.buf.readRun s.cur 2)) :=
    fun s hr hc => (step_raise_truncated_iff hr hc).trans (State.fetch_truncated_iff hc)
  refine ⟨hiff, fun s m hr hc hm h => (hiff { s with buf := m } hr hc).2 ?_⟩
  have hcut := (hiff s hr hc).1 h
  have hshort := (length_lt_requiredLength_congr (m := m) (n := s.inputLen - s.cur) (by omega)
    fun x h1 h2 h3 => hm x h1 (by omega) h3).2 (by omega)
  show s.inputLen < s.cur + requiredLength (m.readRun s.cur 2)
  omega

/-! ### Fault entry -/

/-- After fault entry no step is enabled (R100, R273). -/
theorem step_raise (s : State) (k : FaultKind) : step (s.raise k) = .fault (.noStepEnabled .fault) :=
  step_not_run (by simp)

/-- Settles O9: both steps are the fault entry of their kind, after which no step is enabled. -/
theorem faultEntryWritesStatusKindAndPosition : Obligations.FaultEntryWritesStatusKindAndPosition :=
  ⟨fun s _ hr hb he hd =>
      ⟨s.raise .truncated, step_of_truncated_bytes hr hb he hd, rfl, rfl, step_raise s .truncated⟩,
    fun s _ hr hb hk habort =>
      ⟨s.raise .unknownOpcode, (step_of_unknown_byte hr hb hk).trans (execUnknownOpcode_abort habort), rfl, rfl,
        step_raise s .unknownOpcode⟩⟩

/-! ### FAULT is final -/

/-- What the block reports of its run: the status and fault registers, the cursor and the records (R307). -/
def State.report (s : State) : Status × FaultKind × Nat × Nat × List Record :=
  (s.st, s.faultKind, s.faultPos, s.cur, s.out)

/-- Outside IDLE, where start begins a run, no host action but reset changes what the block reports. -/
theorem hostAct_keeps_report {a : HostAction} {s t : State} (hidle : s.st ≠ .idle) (hreset : a ≠ .reset)
    (h : hostAct a s = .next t) : t.report = s.report := by
  obtain ⟨ha, -⟩ | ⟨-, hi, -⟩ | ⟨-, -, rfl⟩ | ⟨-, ⟨_, _, -, -, rfl⟩ | ⟨_, -, -, rfl⟩ | ⟨_, -, rfl⟩ | ⟨_, -, rfl⟩⟩ :=
    hostAct_cases h
  · exact absurd ha hreset
  · exact absurd hi hidle
  all_goals rfl

/-- In FAULT no event but reset changes what the block reports: there is no decoder step. -/
theorem eventStep_keeps_report {e : Event} {s t : State} (hf : s.st = .fault) (hreset : e ≠ .host .reset)
    (h : eventStep e s = .next t) : t.report = s.report := by
  cases e with
  | decoderStep =>
    obtain ⟨hrun, -⟩ := step_cases h
    simp [hf] at hrun
  | host a => exact hostAct_keeps_report (by simp [hf]) (fun ha => hreset (congrArg Event.host ha)) h

/-- From FAULT the report stays until reset, whatever the events (R276). -/
theorem runEvents_keeps_report {events : List Event} {s t : State} (hf : s.st = .fault)
    (hreset : .host .reset ∉ events) (h : runEvents events s = .next t) : t.report = s.report := by
  refine runEvents_induct (P := fun u => u.report = s.report) (fun e he u v hu hv => ?_) rfl h
  have hst : u.st = s.st := congrArg Prod.fst hu
  have hne : e ≠ .host .reset := fun heq => hreset (heq ▸ he)
  exact (eventStep_keeps_report (hst.trans hf) hne hv).trans hu

/-- Settles O13: the report stays by `runEvents_keeps_report`, and its status is FAULT, in which no step is enabled. -/
theorem faultIsFinalUntilReset : Obligations.FaultIsFinalUntilReset := by
  intro events s t hf hreset h
  have hrep := runEvents_keeps_report hf hreset h
  simp only [State.report, Prod.mk.injEq] at hrep
  obtain ⟨hst, hkind, hpos, hcur, hout⟩ := hrep
  have htf : t.st = .fault := hst.trans hf
  exact ⟨htf, hkind, hpos, hcur, hout, by rw [step_not_run (by simp [htf]), htf]⟩

end Sys2Proof.Machine
end

section
/-! Reset, start and the boot sequence (70_reset_and_hazards.md): reset in every status (R300, R309), start in IDLE and
outside it (R301, R302), and the state that the host's boot order leads to (R301). -/

namespace Sys2Proof.Machine

/-! ### Reset and start -/

theorem hostAct_reset (s : State) : hostAct .reset s = .next s.hostReset := rfl

theorem hostAct_start_of_idle {s : State} (hi : s.st = .idle) : hostAct .start s = .next s.started := if_pos hi

theorem hostAct_start_of_not_idle {s : State} (hi : s.st ≠ .idle) : hostAct .start s = .next s := if_neg hi

/-- After reset no step is enabled until start (R300). -/
theorem step_hostReset (s : State) : step s.hostReset = .fault (.noStepEnabled .idle) :=
  step_not_run (by simp)

/-- Settles O1: the next state is `hostReset`, in every status, and IDLE enables no step. -/
theorem hostResetSetsSpecValues : Obligations.HostResetSetsSpecValues :=
  fun s => ⟨s.hostReset, hostAct_reset s, rfl, rfl, rfl, rfl, rfl, rfl, rfl, rfl, rfl, step_hostReset s⟩

/-! ### Sequences of host actions -/

/-- An action that has a next state hands it to the actions after it. -/
theorem hostActs_cons {a : HostAction} {s t : State} (as : List HostAction) (h : hostAct a s = .next t) :
    hostActs (a :: as) s = hostActs as t := by
  rw [hostActs, h]

/-- Reset leads to IDLE, where start is taken, so the two begin a run from every status (R302). -/
theorem hostActs_reset_start (s : State) : hostActs [.reset, .start] s = .next s.hostReset.started :=
  calc hostActs [.reset, .start] s
    _ = hostActs [.start] s.hostReset := hostActs_cons _ (hostAct_reset s)
    _ = .next s.hostReset.started := hostActs_cons [] (hostAct_start_of_idle (State.hostReset_st s))

/-- Settles O4: outside IDLE start is not taken, and reset leads to IDLE, where it is. -/
theorem startOutsideIdleHasNoEffect : Obligations.StartOutsideIdleHasNoEffect :=
  ⟨fun _ hi => hostAct_start_of_not_idle hi,
    fun s _ => ⟨s.hostReset.started, hostActs_reset_start s, rfl, rfl, rfl⟩⟩

/-! ### The host's writes outside RUN -/

theorem hostAct_writeBuf_of_not_run {s : State} {i : Nat} (v : Byte) (hr : s.st ≠ .run) (hi : i < Config.lMax) :
    hostAct (.writeBuf i v) s = .next { s with buf := s.buf.write i v } :=
  (hostWrite_next_iff _ _ _ _).2 ⟨hr, decide_eq_true hi, rfl⟩

theorem hostAct_writeLen_of_not_run {s : State} {n : Nat} (hr : s.st ≠ .run) (hn : n ≤ Config.lMax) :
    hostAct (.writeLen n) s = .next { s with inputLen := n } :=
  (hostWrite_next_iff _ _ _ _).2 ⟨hr, decide_eq_true hn, rfl⟩

theorem hostAct_writeUnknownAbort_of_not_run {s : State} (v : Bool) (hr : s.st ≠ .run) :
    hostAct (.writeUnknownAbort v) s = .next { s with cfgUnknownAbort := v } :=
  (hostWrite_next_iff _ _ _ _).2 ⟨hr, rfl, rfl⟩

theorem hostAct_writeVerbose_of_not_run {s : State} (v : Bool) (hr : s.st ≠ .run) :
    hostAct (.writeVerbose v) s = .next { s with cfgVerbose := v } :=
  (hostWrite_next_iff _ _ _ _).2 ⟨hr, rfl, rfl⟩

/-- The writes of an input's bytes, within the capacity and outside RUN, write those bytes and nothing else. -/
theorem hostActs_writeInput {s : State} {a : Nat} {input : List Byte} (hr : s.st ≠ .run)
    (hfit : a + input.length ≤ Config.lMax) :
    hostActs (writeInput a input) s = .next { s with buf := s.buf.writeBytes a input } := by
  induction input generalizing s a with
  | nil => rfl
  | cons b bs ih =>
    rw [List.length_cons] at hfit
    rw [writeInput, hostActs_cons _ (hostAct_writeBuf_of_not_run b hr (by omega))]
    exact ih hr (by omega)

/-! ### The boot sequence -/

/-- The state with an input and a configuration written by the host, between reset and start (R301). -/
def State.loaded (s : State) (input : List Byte) (abort verbose : Bool) : State :=
  { s with
    buf := s.buf.writeBytes 0 input, inputLen := input.length
    cfgUnknownAbort := abort, cfgVerbose := verbose }

/-- In IDLE the host's writes load the input and the configuration, and start is then taken (R301). -/
theorem hostActs_load_start {s : State} {input : List Byte} (abort verbose : Bool) (hi : s.st = .idle)
    (hfit : input.length ≤ Config.lMax) :
    hostActs (writeInput 0 input ++
      [.writeLen input.length, .writeUnknownAbort abort, .writeVerbose verbose, .start]) s =
        .next (s.loaded input abort verbose).started := by
  have hr : s.st ≠ .run := by simp [hi]
  rw [hostActs_append (hostActs_writeInput hr (by omega))]
  simp [hostActs, hostAct_writeLen_of_not_run, hostAct_writeUnknownAbort_of_not_run,
    hostAct_writeVerbose_of_not_run, hostAct_start_of_idle, hi, hfit, State.loaded, State.started]

/-- The boot sequence is reset, load and start, from every status (R301). -/
theorem hostActs_bootActions (s : State) {input : List Byte} (abort verbose : Bool)
    (hfit : input.length ≤ Config.lMax) :
    hostActs (bootActions input abort verbose) s = .next (s.hostReset.loaded input abort verbose).started :=
  (hostActs_cons _ (hostAct_reset s)).trans (hostActs_load_start abort verbose (State.hostReset_st s) hfit)

/-- After the boot sequence the input stands at the cursor, from offset 0 up to `L`. -/
theorem State.bytesAtCursor_loaded_started (s : State) (input : List Byte) (abort verbose : Bool) :
    (s.loaded input abort verbose).started.bytesAtCursor input :=
  ⟨Nat.le_of_eq (Nat.zero_add input.length), Memory.read_writeBytes s.buf 0 input⟩

/-- Settles O3: start in IDLE is `started`, and the boot sequence leads to the loaded and started state. -/
theorem bootSequenceStartsDecoder : Obligations.BootSequenceStartsDecoder :=
  ⟨fun _ hi => hostAct_start_of_idle hi, fun s input abort verbose hfit =>
    ⟨(s.hostReset.loaded input abort verbose).started, hostActs_bootActions s abort verbose hfit,
      rfl, rfl, rfl, rfl, rfl, rfl, rfl, rfl, s.hostReset.bytesAtCursor_loaded_started input abort verbose⟩⟩

end Sys2Proof.Machine
end

section
/-! The decoder and the encoder are inverse to each other (30_encoding.md, 46_addressing_resolver.md): on every
well-formed instruction, and on every byte list that decodes. -/

namespace Sys2Proof.Machine

/-! ### Decoding an encoding -/

/-- 88-8B decode from their opcode byte and the bytes of their operands, whatever bytes follow. -/
theorem decode_rmBytes {op : Byte} (hk : classify op = some .movRmReg) (reg : BitVec 3) {m : RmForm}
    (hm : m.wellFormed = true) (more : List Byte) :
    decode (op :: (rmBytes reg m ++ more)) = .ok (rmRegInstr (opD op) (opW op) reg m, more) := by
  rw [decode_cons, hk]
  exact (decodeRmReg_ok_iff _ _ _ _).2 ⟨reg, m, hm, rfl, rfl⟩

theorem decode_encode_movRImm {w : BitVec 1} {imm : Half} (hw : w = 1#1 ∨ imm.toNat < 256) (reg : BitVec 3)
    (more : List Byte) : decode (encode (.movRImm w reg imm) ++ more) = .ok (.movRImm w reg imm, more) := by
  obtain ⟨hk, hopw, hopreg, -⟩ := movImmReg_opcode_fields w reg
  have hread := (decodeImmReg_ok_iff (0b1011#4 ++ w ++ reg) (immBytes w imm ++ more) more (.movRImm w reg imm)).2
    ⟨imm, by rwa [hopw], by rw [hopw, hopreg], by rw [hopw]⟩
  change decode ((0b1011#4 ++ w ++ reg) :: (immBytes w imm ++ more)) = _
  rw [decode_cons, hk]
  exact hread

/-- Settles O21: the four forms of 88-8B by `decode_rmBytes`, and each other form by the fields of its opcode byte. -/
theorem decodeOfEncodeGivesInstruction : Obligations.DecodeOfEncodeGivesInstruction := by
  intro i more hw
  cases i with
  | movRm8R8 dst src => exact decode_rmBytes (op := 0x88#8) (by decide) src hw more
  | movRm16R16 dst src => exact decode_rmBytes (op := 0x89#8) (by decide) src hw more
  | movR8Rm8 dst src => exact decode_rmBytes (op := 0x8A#8) (by decide) dst hw more
  | movR16Rm16 dst src => exact decode_rmBytes (op := 0x8B#8) (by decide) dst hw more
  | movRm8Imm8 ign dst imm => exact decode_encode_movRm8Imm8 ign hw imm more
  | movRm16Imm16 ign dst imm => exact decode_encode_movRm16Imm16 ign hw imm more
  | movRImm w reg imm => exact decode_encode_movRImm (by simpa [Instr.wellFormed] using hw) reg more
  | phMemToAcc w =>
    obtain ⟨hk, hopw⟩ := phMemToAcc_opcode_fields w
    change decode ((0b1010000#7 ++ w) :: more) = _
    rw [decode_cons, hk, hopw]
  | phAccToMem w =>
    obtain ⟨hk, hopw⟩ := phAccToMem_opcode_fields w
    change decode ((0b1010001#7 ++ w) :: more) = _
    rw [decode_cons, hk, hopw]
  | phRmToSreg => exact decode_cons_of_decode_opcode (op := 0x8E#8) (by decide) more
  | phSregToRm => exact decode_cons_of_decode_opcode (op := 0x8C#8) (by decide) more
  | unknownOpcode op =>
    exact decode_cons_of_decode_opcode (decode_singleton_of_unknown ((classify_eq_none_iff op).2 hw)) more

/-! ### Encoding what is decoded -/

@[simp] theorem rmRegInstr_operandBytes (d w : BitVec 1) (reg : BitVec 3) (m : RmForm) :
    (rmRegInstr d w reg m).operandBytes = rmBytes reg m := by
  rcases widthBit_cases d with rfl | rfl <;> rcases widthBit_cases w with rfl | rfl <;> rfl

/-- The bytes that a decode takes after the opcode byte are the decoded instruction's operand bytes. -/
theorem decode_operandBytes {op : Byte} {bs rest : List Byte} {i : Instr} (h : decode (op :: bs) = .ok (i, rest)) :
    bs = i.operandBytes ++ rest := by
  rw [decode_cons] at h
  split at h
  · obtain ⟨reg, m, -, rfl, rfl⟩ := (decodeRmReg_ok_iff _ _ _ _).1 h
    rw [rmRegInstr_operandBytes]
  · rcases widthBit_cases (opW op) with hw | hw
    · obtain ⟨ign, m, imm, -, rfl, rfl⟩ := (decodeImmRm_byte_ok_iff op hw _ _ _).1 h
      exact (List.append_assoc (rmBytes ign m) [imm] rest).symm
    · obtain ⟨ign, m, imm, -, rfl, rfl⟩ := (decodeImmRm_word_ok_iff op hw _ _ _).1 h
      exact (List.append_assoc (rmBytes ign m) (bytesOfHalf imm) rest).symm
  · obtain ⟨imm, -, rfl, rfl⟩ := (decodeImmReg_ok_iff _ _ _ _).1 h
    rfl
  all_goals
    cases h
    rfl

/-- Settles O22: the opcode byte by `decode_opcode`, and the bytes after it by `decode_operandBytes`. -/
theorem encodeOfDecodedGivesBytes : Obligations.EncodeOfDecodedGivesBytes := by
  intro bs rest i h
  cases bs with
  | nil => cases h
  | cons op bs =>
    refine ⟨?_, decode_wellFormed h⟩
    rw [encode, decode_opcode h, decode_operandBytes h, List.cons_append]

end Sys2Proof.Machine
end

section
/-! The encoding's tables (30_encoding.md R71-R76, 46_addressing_resolver.md R210): the kind of every byte value, the
four modes, the words of the examples, and how the fields of an instruction are assembled from its bytes. -/

namespace Sys2Proof.Machine

/-! ### The tables -/

set_option maxRecDepth 4000 in
/-- R74: the kind of every byte value, by its ranges. -/
theorem classify_listing : ∀ op : Byte, classify op =
    if 0x88 ≤ op.toNat ∧ op.toNat ≤ 0x8B then some .movRmReg
    else if op.toNat = 0x8C then some .phSregToRm
    else if op.toNat = 0x8E then some .phRmToSreg
    else if 0xA0 ≤ op.toNat ∧ op.toNat ≤ 0xA1 then some .phMemToAcc
    else if 0xA2 ≤ op.toNat ∧ op.toNat ≤ 0xA3 then some .phAccToMem
    else if 0xB0 ≤ op.toNat ∧ op.toNat ≤ 0xBF then some .movImmReg
    else if 0xC6 ≤ op.toNat ∧ op.toNat ≤ 0xC7 then some .movImmRm
    else none := by
  decide

set_option maxRecDepth 4000 in
/-- R74 gives a row to 28 of the 256 byte values. -/
theorem count_recognised_bytes :
    ((List.range 256).filter fun n => (classify (BitVec.ofNat 8 n)).isSome).length = 28 := by
  decide

/-- Settles O19: the listing and the counts over all 256 values, and the fields of the opcodes that have them. -/
theorem classifierListing : Obligations.ClassifierListing :=
  ⟨classify_listing, by decide, by decide, by decide, by decide, by decide, by decide, count_recognised_bytes,
    count_unknown_bytes⟩

/-- Settles O24: the four codes by evaluation, each mode being the one that its own code names. -/
theorem modFieldNamesFourModes : Obligations.ModFieldNamesFourModes :=
  ⟨rfl, rfl, rfl, rfl, fun mode => ⟨mode.modBits, modeOfMod_modBits mode⟩, fun _ => ⟨rfl, rfl, rfl, rfl⟩⟩

/-- Settles O25: each word is evaluated. -/
theorem specWordsDecode : Obligations.SpecWordsDecode :=
  ⟨by decide, by decide, by decide, by decide, by decide, by decide⟩

/-! ### Signed and unsigned fields -/

/-- An 8-bit displacement is sign-extended (R76). -/
theorem sext16_toInt (b : Byte) : (sext16 b).toInt = if b.getLsbD 7 then (b.toNat : Int) - 256 else b.toNat := by
  rw [sext16, BitVec.toInt_signExtend_of_le (by decide), BitVec.toInt_eq_msb_cond, BitVec.msb_eq_getLsbD_last]
  rfl

/-- The sign of a 16-bit field is the sign of its high byte. -/
theorem halfOfBytes_msb (lo hi : Byte) : (halfOfBytes lo hi).msb = hi.getLsbD 7 := by
  rw [halfOfBytes, BitVec.msb_append, if_neg (by decide), BitVec.msb_eq_getLsbD_last]

/-- A 16-bit displacement is read in two's complement (R76). -/
theorem halfOfBytes_toInt (lo hi : Byte) : (halfOfBytes lo hi).toInt =
    if hi.getLsbD 7 then (lo.toNat : Int) + 256 * hi.toNat - 65536 else lo.toNat + 256 * hi.toNat := by
  rw [BitVec.toInt_eq_msb_cond, halfOfBytes_msb, halfOfBytes_toNat]
  push_cast
  rfl

/-- A byte immediate is zero-extended (R76). -/
theorem zext16_toNat (b : Byte) : (zext16 b).toNat = b.toNat :=
  BitVec.toNat_setWidth_of_le (by decide)

/-! ### The data read after the addressing read -/

/-- The ModRM byte and what the addressing read takes after it are the bytes of the operand read. -/
theorem cons_eq_rmBytes_append {modrm : Byte} {bs rest : List Byte} {m : RmForm}
    (h : readRmForm (modrmMod modrm) (modrmRm modrm) bs = .ok (m, rest)) :
    m.wellFormed = true ∧ modrm :: bs = rmBytes (modrmReg modrm) m ++ rest :=
  (modrm_ok_iff (modrm :: bs) rest (modrmReg modrm) m).1 ⟨modrm, bs, rfl, h, rfl⟩

theorem decode_C6_of_readRmForm {modrm b : Byte} {bs rest : List Byte} {m : RmForm}
    (h : readRmForm (modrmMod modrm) (modrmRm modrm) bs = .ok (m, b :: rest)) :
    decode (0xC6#8 :: modrm :: bs) = .ok (.movRm8Imm8 (modrmReg modrm) m b, rest) := by
  obtain ⟨hm, hbytes⟩ := cons_eq_rmBytes_append h
  rw [decode_movImmRm (by decide)]
  exact (decodeImmRm_byte_ok_iff 0xC6#8 (by decide) _ _ _).2 ⟨_, m, b, hm, rfl, hbytes⟩

theorem decode_C7_of_readRmForm {modrm lo hi : Byte} {bs rest : List Byte} {m : RmForm}
    (h : readRmForm (modrmMod modrm) (modrmRm modrm) bs = .ok (m, lo :: hi :: rest)) :
    decode (0xC7#8 :: modrm :: bs) = .ok (.movRm16Imm16 (modrmReg modrm) m (halfOfBytes lo hi), rest) := by
  obtain ⟨hm, hbytes⟩ := cons_eq_rmBytes_append h
  rw [← bytesOfHalf_halfOfBytes_append] at hbytes
  rw [decode_movImmRm (by decide)]
  exact (decodeImmRm_word_ok_iff 0xC7#8 (by decide) _ _ _).2 ⟨_, m, halfOfBytes lo hi, hm, rfl, hbytes⟩

/-- Settles O41: the values of the fields, and the reads that assemble them. -/
theorem fieldsAssembleFromBytes : Obligations.FieldsAssembleFromBytes :=
  ⟨halfOfBytes_toNat, fun _ b => ⟨rfl, sext16_toInt b⟩, fun _ lo hi _ => ⟨rfl, halfOfBytes_toInt lo hi⟩,
    fun _ _ _ => rfl, fun b _ => ⟨rfl, zext16_toNat b, (zext16_toNat b).trans_lt b.isLt⟩, fun _ _ _ => rfl,
    fun _ _ _ _ _ _ h => ⟨decode_C6_of_readRmForm h, rfl⟩,
    fun _ _ _ _ _ _ _ h => ⟨decode_C7_of_readRmForm h, rfl⟩⟩

end Sys2Proof.Machine
end

section
/-! The host's writes (20_memory.md R57), refused in RUN and done otherwise, and the state after power-on
(10_state.md). -/

namespace Sys2Proof.Machine

/-- During RUN a host write is refused, whatever it would write. -/
theorem hostAct_refused_in_run {a : HostAction} {s : State} (hr : s.st = .run) (hreset : a ≠ .reset)
    (hstart : a ≠ .start) : hostAct a s = .refused .hostWriteDuringRun := by
  cases a with
  | reset => exact absurd rfl hreset
  | start => exact absurd rfl hstart
  | writeBuf i v | writeLen n | writeUnknownAbort v | writeVerbose v => exact if_pos hr

/-- A refused action ends the sequence of actions. -/
theorem hostActs_of_refused {a : HostAction} {s : State} {r : Refusal} (as : List HostAction)
    (h : hostAct a s = .refused r) : hostActs (a :: as) s = .refused r := by
  rw [hostActs, h]

/-- Outside RUN a host write is done within the capacity and refused beyond it. -/
theorem hostWrite_of_not_run {s : State} (hr : s.st ≠ .run) (p : Prop) [Decidable p] (t : State) :
    hostWrite (decide p) s t = if p then .next t else .refused .beyondCapacity := by
  rw [hostWrite, if_neg hr]
  simp only [decide_eq_true_eq]

/-- Settles O5: the refusal in RUN ends the sequence, and outside RUN each write's condition is its capacity. -/
theorem hostWritesDuringRunAreRefused : Obligations.HostWritesDuringRunAreRefused :=
  ⟨fun _ _ later hr hreset hstart =>
      ⟨hostAct_refused_in_run hr hreset hstart, hostActs_of_refused later (hostAct_refused_in_run hr hreset hstart)⟩,
    fun s hr => ⟨fun _ _ => hostWrite_of_not_run hr _ _,
      fun i v => ⟨Memory.read_write_same s.buf i v, fun _ ha => Memory.read_write_other s.buf v ha⟩,
      fun _ => hostWrite_of_not_run hr _ _, fun b => hostAct_writeUnknownAbort_of_not_run b hr,
      fun b => hostAct_writeVerbose_of_not_run b hr⟩⟩

/-- Settles O2: the reset values by definition, and an offset of an unwritten buffer reads as its free value. -/
theorem powerOnStateHoldsResetValues : Obligations.PowerOnStateHoldsResetValues :=
  ⟨rfl, rfl, rfl, rfl, rfl, rfl, rfl, rfl, fun _ => Memory.read_of_unwritten rfl, State.reset_buf_wf⟩

end Sys2Proof.Machine
end

section
/-! The run to its end (40_decode_cycle.md R101, R105, R106): what the step at the cursor runs, that it makes progress,
and where it sets DONE; and that the bytes of R78 are skipped like any unknown opcode (30_encoding.md). -/

namespace Sys2Proof.Machine

/-! ### Progress -/

/-- Every step ends the run where it stands, or moves the cursor on inside the input (R106). -/
theorem step_progress {s t : State} (h : step s = .next t) :
    (t.st = .done ∧ t.cur = s.cur) ∨ (t.st = .fault ∧ t.cur = s.cur) ∨
      (t.st = .run ∧ s.cur + 1 ≤ t.cur ∧ t.cur ≤ s.inputLen) := by
  obtain ⟨hr, ⟨-, rfl⟩ | ⟨-, bs, i, r, hb, hd, hrec, rfl⟩ | ⟨hc, _, -, -, -, rfl⟩ | ⟨-, _, -, -, -, rfl⟩ |
    ⟨-, -, rfl⟩⟩ := step_effects h
  · exact .inl ⟨rfl, rfl⟩
  · have hlen : bs.length = i.length := by simpa using decode_length hd
    have hrlen := recordOf_len hrec
    have hpos := length_pos i
    have hfit := hb.1
    exact .inr (.inr ⟨hr, by rw [State.commit_cur]; omega, by rw [State.commit_cur]; omega⟩)
  · exact .inr (.inr ⟨hr, Nat.le_refl _, hc⟩)
  · exact .inr (.inl ⟨rfl, rfl⟩)
  · exact .inr (.inl ⟨rfl, rfl⟩)

theorem step_inputLen {s t : State} (h : step s = .next t) : t.inputLen = s.inputLen := by rw [step_frame h]

/-- A run whose first step leaves RUN is that step. -/
theorem decodeRun_of_last_step {s t : State} (k : Nat) (hr : s.st = .run) (h : step s = .next t) (ht : t.st ≠ .run) :
    decodeRun (k + 1) s = .next t :=
  (decodeRun_step k hr h).trans (decodeRun_not_run k ht)

/-- More steps than there are bytes left end the run. -/
theorem decodeRun_ends {n : Nat} {s : State} (hr : s.st = .run) (hc : s.cur ≤ s.inputLen)
    (hn : s.inputLen - s.cur < n) : ∃ t, decodeRun n s = .next t ∧ (t.st = .done ∨ t.st = .fault) := by
  induction n generalizing s with
  | zero => omega
  | succ n ih =>
    obtain ⟨t, ht⟩ := step_has_next hr hc
    have hlen := step_inputLen ht
    obtain ⟨hst, -⟩ | ⟨hst, -⟩ | ⟨hst, hmore, hin⟩ := step_progress ht
    · exact ⟨t, decodeRun_of_last_step n hr ht (by simp [hst]), .inl hst⟩
    · exact ⟨t, decodeRun_of_last_step n hr ht (by simp [hst]), .inr hst⟩
    · rw [decodeRun_step n hr ht]
      exact ih hst (by omega) (by omega)

/-- Settles O10: `step_progress` for the one step, and its induction `decodeRun_ends` for the run. -/
theorem runEndsWithinInputLengthPlusOne : Obligations.RunEndsWithinInputLengthPlusOne := by
  intro s hr hc
  obtain ⟨t, ht⟩ := step_has_next hr hc
  exact ⟨⟨t, ht, step_progress ht⟩, decodeRun_ends hr hc (Nat.lt_succ_self _)⟩

/-- Of a step's effects only normal termination leaves the block in DONE (R101). -/
theorem step_done {s t : State} (h : step s = .next t) (hdone : t.st = .done) :
    s.cur = s.inputLen ∧ t = s.finish := by
  obtain ⟨hr, ⟨hc, rfl⟩ | ⟨-, _, _, r, -, -, -, rfl⟩ | ⟨-, _, -, -, -, rfl⟩ | ⟨-, _, -, -, -, rfl⟩ | ⟨-, -, rfl⟩⟩ :=
    step_effects h
  · exact ⟨hc, rfl⟩
  all_goals simp [hr] at hdone

/-- Settles O7: at the end of the input the step is `finish`, and only there it leads to DONE. -/
theorem endOfInputSetsDone : Obligations.EndOfInputSetsDone :=
  ⟨fun _ hr hc => step_at_end hr hc, fun _ _ h hdone => step_done h hdone⟩

/-! ### What a step runs -/

/-- The first of the bytes that stand at the cursor is the byte there. -/
theorem State.read_cur_of_bytes {s : State} {b : Byte} {bs : List Byte} (h : s.bytesAtCursor (b :: bs)) :
    s.buf.read s.cur = b :=
  h.2 0 (Nat.succ_pos _)

/-- Settles O8: the bytes at the cursor are fetched as what they decode to, and only well-formed terms are decoded. -/
theorem stepRunsDecodedInstruction : Obligations.StepRunsDecodedInstruction :=
  fun _ _ _ hr hb hd => ⟨step_of_bytes hr hb hd, decode_wellFormed hd⟩

/-- Of the bytes at the cursor, those after a front part stand at the cursor moved past it. -/
theorem State.bytesAtCursor_setCur {s : State} {front rest : List Byte} (h : s.bytesAtCursor (front ++ rest)) :
    (s.setCur (s.cur + front.length)).bytesAtCursor rest := by
  obtain ⟨hfit, hread⟩ := h
  rw [List.length_append] at hfit
  refine ⟨by rw [State.setCur_cur, State.setCur_inputLen]; omega, fun k hk => ?_⟩
  rw [State.setCur_cur, State.setCur_buf, Nat.add_assoc, hread _ (by rw [List.length_append]; omega),
    List.getElem_append_right (Nat.le_add_right _ _)]
  simp only [Nat.add_sub_cancel_left]

theorem classify_prefix_byte :
    ∀ op ∈ [0x26#8, 0x2E#8, 0x36#8, 0x3E#8, 0xF0#8, 0xF2#8, 0xF3#8], classify op = none := by
  decide

/-- Settles O20: each of the seven bytes is an unknown opcode, and its skip leaves the cursor at the bytes after it. -/
theorem prefixBytesAreSkipped : Obligations.PrefixBytesAreSkipped := by
  refine ⟨classify_prefix_byte, fun s op bs i hr hskip hop hb hd => ⟨?_, ?_⟩⟩
  · have hfront : s.bytesAtCursor [op] := State.bytesAtCursor_append (rest := bs) hb
    exact (step_of_unknown_byte hr hfront (classify_prefix_byte op hop)).trans (execUnknownOpcode_skip hskip)
  · exact step_of_bytes (s := s.skip) hr (State.bytesAtCursor_setCur (front := [op]) hb) hd

end Sys2Proof.Machine
end

section
/-! What each MOV form emits (41_mov_rm_reg.md, 42_mov_imm_rm.md, 43_mov_imm_reg.md), and what every instruction leaves
unchanged. -/

namespace Sys2Proof.Machine

/-! ### The record of each MOV form -/

/-- Settles O28: the bytes fit, so the record of 88 is committed. -/
theorem movRm8R8Emits : Obligations.MovRm8R8Emits :=
  ⟨fun dst src _ hfit => exec_fits (i := .movRm8R8 dst src) rfl hfit, fun _ _ => rfl, by decide, by decide⟩

/-- Settles O29: the bytes fit, so the record of 89 is committed. -/
theorem movRm16R16Emits : Obligations.MovRm16R16Emits :=
  ⟨fun dst src _ hfit => exec_fits (i := .movRm16R16 dst src) rfl hfit, fun _ _ => rfl, by decide, by decide⟩

/-- Settles O30: the bytes fit, so the record of 8A is committed. -/
theorem movR8Rm8Emits : Obligations.MovR8Rm8Emits :=
  ⟨fun dst src _ hfit => exec_fits (i := .movR8Rm8 dst src) rfl hfit, fun _ _ => rfl, by decide, by decide⟩

/-- Settles O31: the bytes fit, so the record of 8B is committed. -/
theorem movR16Rm16Emits : Obligations.MovR16Rm16Emits :=
  ⟨fun dst src _ hfit => exec_fits (i := .movR16Rm16 dst src) rfl hfit, fun _ _ => rfl, by decide, by decide⟩

/-- Settles O32: the bytes fit, so the record of C6 is committed. -/
theorem movRm8Imm8Emits : Obligations.MovRm8Imm8Emits :=
  ⟨fun ign dst imm _ hfit => exec_fits (i := .movRm8Imm8 ign dst imm) rfl hfit, fun _ _ _ => rfl, by decide, by decide⟩

/-- Settles O33: the bytes fit, so the record of C7 is committed. -/
theorem movRm16Imm16Emits : Obligations.MovRm16Imm16Emits :=
  ⟨fun ign dst imm _ hfit => exec_fits (i := .movRm16Imm16 ign dst imm) rfl hfit, fun _ _ _ => rfl, by decide,
    by decide⟩

theorem length_movRImm (w : BitVec 1) (reg : BitVec 3) (imm : Half) :
    (Instr.movRImm w reg imm).length = 2 + w.toNat := by
  rw [Instr.length, immLen, ← Nat.add_assoc]

/-- The record of B0-BF in the fields of its opcode, whose low nibble is the destination key (R161). -/
theorem recordOf_movRImm (w : BitVec 1) (reg : BitVec 3) (imm : Half) (p : Nat) :
    recordOf (.movRImm w reg imm) p = some {
      kind := .movImmReg, pos := p, len := 2 + w.toNat, opcode := 0b1011#4 ++ w ++ reg
      w := some w, d := none, mode := none, reg := some reg, rm := none
      disp := none, imm := some imm
      dst := some (.reg (w ++ reg)), src := some (.imm imm (widthOf w)) } := by
  obtain ⟨-, hw, hreg, hkey⟩ := movImmReg_opcode_fields w reg
  have hlen : 1 + immLen w = 2 + w.toNat := length_movRImm w reg imm
  simp only [recordOf, recordImmReg, hw, hreg, hkey, hlen]

/-- Settles O34: the bytes fit, so the record of B0-BF is committed, in the fields that its opcode reads back as. -/
theorem movRImmEmits : Obligations.MovRImmEmits := by
  refine ⟨fun w reg imm s hfit => ?_, fun w reg imm => ?_, by decide⟩
  · exact exec_fits (recordOf_movRImm w reg imm s.cur) (by rwa [length_movRImm])
  · obtain ⟨-, -, -, hkey⟩ := movImmReg_opcode_fields w reg
    exact ⟨rfl, hkey⟩

/-! ### Truncation and the frame -/

/-- Settles O38: a MOV form completes its record, which the input cuts short. -/
theorem movFormsTruncateBeyondInput : Obligations.MovFormsTruncateBeyondInput := by
  rintro i s ⟨r, hrec, hkind⟩ hshort
  rw [exec_eq, hrec]
  exact (if_pos hkind).trans (complete_short (recordOf_len hrec ▸ hshort))

/-- Settles O39: of the four outcomes of `exec` two move past the instruction, and two enter FAULT. -/
theorem instructionsLeaveTheRestUnchanged : Obligations.InstructionsLeaveTheRestUnchanged := by
  intro i s t h
  obtain ⟨r, hrec, hx⟩ | ⟨r, hrec, hshort, hx⟩ | ⟨hrec, hskip, hx⟩ | ⟨hrec, habort, hx⟩ := exec_cases i s
  all_goals
    cases h.symm.trans hx
    refine ⟨fun _ => rfl, rfl, rfl, rfl, rfl, ?_⟩
  · exact .inl ⟨rfl, rfl, rfl, by rw [State.commit_cur, recordOf_len hrec], .inl ⟨r, hrec, rfl⟩⟩
  · exact .inr ⟨rfl, rfl, rfl, rfl, .inl ⟨rfl, hshort⟩⟩
  · obtain ⟨op, rfl⟩ := (recordOf_eq_none_iff i s.cur).1 hrec
    exact .inl ⟨rfl, rfl, rfl, rfl, .inr ⟨hrec, hskip, rfl⟩⟩
  · exact .inr ⟨rfl, rfl, rfl, rfl, .inr ⟨rfl, hrec, habort⟩⟩

end Sys2Proof.Machine
end

section
/-! Precise faults and their causes (60_exceptions.md), and which bytes of the buffer a step reads
(93_implementation_defined.md). -/

namespace Sys2Proof.Machine

/-! ### The causes of the faults -/

/-- The bytes that end the input at a cursor inside it begin with the byte there. -/
theorem State.cons_of_bytes_to_end {s : State} {bs : List Byte} (hc : s.cur < s.inputLen) (hb : s.bytesAtCursor bs)
    (hend : s.cur + bs.length = s.inputLen) : ∃ tail, bs = s.buf.read s.cur :: tail := by
  obtain ⟨b, tail, rfl⟩ := List.exists_cons_of_length_pos (l := bs) (by omega)
  exact ⟨tail, by rw [State.read_cur_of_bytes hb]⟩

/-- A step that reaches FAULT stands inside the input: at an unmatched byte under the abort setting, or at a truncated
instruction of a kind that reads further bytes (R271, R272). -/
theorem step_fault_cases {s t : State} (h : step s = .next t) (hfault : t.st = .fault) :
    s.st = .run ∧ s.cur < s.inputLen ∧
      ((classify (s.buf.read s.cur) = none ∧ s.cfgUnknownAbort = true ∧ t = s.raise .unknownOpcode) ∨
        ((classify (s.buf.read s.cur) = some .movRmReg ∨ classify (s.buf.read s.cur) = some .movImmRm ∨
          classify (s.buf.read s.cur) = some .movImmReg) ∧ t = s.raise .truncated)) := by
  obtain ⟨hr, ⟨-, rfl⟩ | ⟨-, _, _, r, -, -, -, rfl⟩ | ⟨-, _, -, -, -, rfl⟩ | ⟨hc, op, hb, hk, habort, rfl⟩ |
    ⟨hc, ⟨bs, e, hb, hend, hd⟩, rfl⟩⟩ := step_effects h
  · cases hfault
  · simp [hr] at hfault
  · simp [hr] at hfault
  · exact ⟨hr, hc, .inl ⟨by rwa [State.read_cur_of_bytes hb], habort, rfl⟩⟩
  · obtain ⟨tail, rfl⟩ := State.cons_of_bytes_to_end hc hb hend
    exact ⟨hr, hc, .inr ⟨(decode_error_kind hd).2, rfl⟩⟩

/-- Settles O12: the two cases of `step_fault_cases`. -/
theorem faultCausesExcludeEachOther : Obligations.FaultCausesExcludeEachOther := by
  intro s t h hfault
  obtain ⟨-, -, ⟨hk, habort, rfl⟩ | ⟨hk, rfl⟩⟩ := step_fault_cases h hfault
  · exact .inr ⟨rfl, hk, habort⟩
  · exact .inl ⟨rfl, hk⟩

theorem State.bytesAtCursor_singleton {s : State} (hc : s.cur < s.inputLen) : s.bytesAtCursor [s.buf.read s.cur] := by
  refine ⟨hc, fun k hk => ?_⟩
  obtain rfl : k = 0 := by simpa using hk
  rfl

/-- Settles O11: both faults are `raise`, and the unknown opcode's needs the byte at the cursor alone. -/
theorem faultsArePrecise : Obligations.FaultsArePrecise := by
  intro s t h hfault
  obtain ⟨hr, hc, ⟨hk, habort, rfl⟩ | ⟨-, rfl⟩⟩ := step_fault_cases h hfault
  · refine ⟨rfl, rfl, rfl, hc, fun _ m hm => ?_⟩
    have hb : { s with buf := m : State }.bytesAtCursor [m.read s.cur] :=
      State.bytesAtCursor_singleton (s := { s with buf := m }) hc
    exact (step_of_unknown_byte (s := { s with buf := m }) hr hb (by rwa [hm])).trans (execUnknownOpcode_abort habort)
  · exact ⟨rfl, rfl, rfl, hc, fun hkind => by cases hkind⟩

/-! ### Which bytes a step reads -/

/-- Bytes that stand at the cursor stand there in every buffer that holds the same input. -/
theorem State.bytesAtCursor_congr {s : State} {m : Memory} {bs : List Byte}
    (hm : ∀ a, a < s.inputLen → m.read a = s.buf.read a) (hb : s.bytesAtCursor bs) :
    { s with buf := m : State }.bytesAtCursor bs := by
  obtain ⟨hfit, hread⟩ := hb
  exact ⟨hfit, fun k hk => (hm (s.cur + k) (by omega)).trans (hread k hk)⟩

/-- A step has the same effect with every buffer that holds the same input. -/
theorem step_congr_buf {s t : State} {m : Memory} (hm : ∀ a, a < s.inputLen → m.read a = s.buf.read a)
    (h : step s = .next t) : step { s with buf := m } = .next { t with buf := m } := by
  have hcongr {bs : List Byte} (hb : s.bytesAtCursor bs) : { s with buf := m : State }.bytesAtCursor bs :=
    State.bytesAtCursor_congr hm hb
  obtain ⟨hr, ⟨hc, rfl⟩ | ⟨-, bs, i, r, hb, hd, hrec, rfl⟩ | ⟨-, _, hb, hk, hskip, rfl⟩ | ⟨-, _, hb, hk, habort, rfl⟩ |
    ⟨hc, ⟨bs, e, hb, hend, hd⟩, rfl⟩⟩ := step_effects h
  · exact step_at_end hr hc
  · have hlen : bs.length = i.length := by simpa using decode_length hd
    exact (step_of_bytes (s := { s with buf := m }) hr (hcongr hb) hd).trans (exec_fits hrec (hlen ▸ hb.1))
  · exact (step_of_unknown_byte (s := { s with buf := m }) hr (hcongr hb) hk).trans (execUnknownOpcode_skip hskip)
  · exact (step_of_unknown_byte (s := { s with buf := m }) hr (hcongr hb) hk).trans (execUnknownOpcode_abort habort)
  · exact step_of_truncated (s := { s with buf := m }) hr hc (State.fetch_truncated_of_bytes (hcongr hb) hend hd)

/-- Settles O57: `step_congr_buf`. -/
theorem bytesBeyondInputAreNeverRead : Obligations.BytesBeyondInputAreNeverRead :=
  fun _ _ _ hm h => step_congr_buf hm h

/-- Writing the free value of an unwritten offset there leaves every byte. -/
theorem Memory.read_write_unloadedByte {m : Memory} {a : Nat} (ha : m.lookup a = none) (x : Nat) :
    (m.write a (Config.unloadedByte a)).read x = m.read x := by
  by_cases hx : x = a
  · rw [hx, Memory.read_write_same, Memory.read_of_unwritten ha]
  · exact Memory.read_write_other m _ hx

/-- Settles O58: a step has a next state whatever the buffer, and writing the byte that stands there changes no byte. -/
theorem unwrittenBytesHoldFreeValues : Obligations.UnwrittenBytesHoldFreeValues :=
  ⟨fun _ _ ha => Memory.read_of_unwritten ha, fun s m hr hc => step_has_next (s := { s with buf := m }) hr hc,
    fun _ _ _ ha h => step_congr_buf (fun x _ => Memory.read_write_unloadedByte ha x) h⟩

end Sys2Proof.Machine
end

section
/-! The text of operands and lines (46_addressing_resolver.md, 47_register_namer.md, 48_emitter.md): memory operands in
every mode, the lines that make up the text, and that no line holds a line feed. -/

namespace Sys2Proof.Machine

/-! ### The text of an operand -/

/-- Settles O43: the sixteen names by evaluation, and the key as a concatenation of bits. -/
theorem registerNameTable : Obligations.RegisterNameTable := by
  refine ⟨by decide, by decide, fun w sel => ?_⟩
  revert w sel
  decide

/-- A based operand with a displacement is rendered with its suffix, but for `[bp]` (R217, R218). -/
theorem memText_basedDisp {rm : BitVec 3} {d : Half} (h : ¬ (rm = 0b110#3 ∧ d.toInt = 0)) :
    memText (.basedDisp rm d) = '[' :: baseExpr rm ++ dispSuffix d ++ [']'] := by
  have hbp : ¬ (rm = 0b110#3 ∧ d = 0#16) := fun ⟨hrm, hd⟩ => h ⟨hrm, by rw [hd]; rfl⟩
  exact if_neg hbp

theorem dispSuffix_of_nonneg {d : Half} (h : 0 ≤ d.toInt) :
    dispSuffix d = [' ', '+', ' '] ++ Nat.toDigits 10 d.toInt.toNat := by
  have habs : d.toInt.natAbs = d.toInt.toNat := by omega
  rw [dispSuffix, if_neg (by omega), habs]
  rfl

theorem dispSuffix_of_neg {d : Half} (h : d.toInt < 0) :
    dispSuffix d = [' ', '-', ' '] ++ Nat.toDigits 10 (-d.toInt).toNat := by
  have habs : d.toInt.natAbs = (-d.toInt).toNat := by omega
  rw [dispSuffix, if_pos h, habs]
  rfl

/-- Settles O44: the suffix by the sign of the displacement, -32768 being the negative one that R221 names. -/
theorem memoryOperandText : Obligations.MemoryOperandText := by
  refine ⟨by decide, fun _ _ => rfl, fun _ => rfl, fun rm d h => ⟨fun hd => ?_, fun hd => ?_⟩, rfl, fun rm => ?_⟩
  · rw [memText_basedDisp h, dispSuffix_of_nonneg hd, List.append_assoc _ _ (Nat.toDigits _ _)]
  · rw [memText_basedDisp h, dispSuffix_of_neg hd, List.append_assoc _ _ (Nat.toDigits _ _)]
  · have hmin : dispSuffix 0x8000#16 ++ [']'] = " - 32768]".toList := by decide
    rw [memText_basedDisp (fun ⟨_, hzero⟩ => absurd hzero (by decide)), List.append_assoc, hmin]

/-! ### The lines of the text -/

/-- One more record appends a blank line and the record's line (R251, R256). -/
theorem textOf_concat (verbose : Bool) (rs : List Record) (r : Record) :
    textOf verbose (rs ++ [r]) = textOf verbose rs ++ [lf] ++ recordLine verbose r ++ [lf] := by
  simp [textOf_append, recordText]

/-- Settles O46: once started the text is `textOf`, which appends the lines, and a line is its kind's. -/
theorem textIsDirectiveThenRecordLines : Obligations.TextIsDirectiveThenRecordLines := by
  refine ⟨fun s hi => ?_, fun s hi hout => ?_, fun s rs r hi hout => ⟨textOf s.cfgVerbose rs, ?_, ?_⟩,
    fun s t hs ht hout hverbose => ?_, fun r dst src hk hdst hsrc => ?_, fun r k hk hr => ?_⟩
  · rw [State.text, hi]
  · rw [State.text_of_started hi, hout]
    simp [textOf]
  · exact State.text_of_started (s := { s with out := rs }) hi
  · rw [State.text_of_started hi, hout, textOf_concat]
    rfl
  · rw [State.text_of_started hs, State.text_of_started ht, hout, hverbose]
  · rcases hk with hk | hk | hk <;> simp [line, hk, hdst, hsrc, operandText]
  · rcases hk with rfl | rfl | rfl | rfl <;> rw [line, hr]

/-! ### No line holds a line feed -/

theorem lf_not_mem_regName : ∀ key, lf ∉ regName key := by decide

theorem lf_not_mem_baseExpr : ∀ rm, lf ∉ baseExpr rm := by decide

/-- A decimal number has digits only. -/
theorem lf_not_mem_dec (n : Nat) : lf ∉ dec n := fun h =>
  absurd (Nat.isDigit_of_mem_toDigits (by decide) (by decide) h) (by decide)

theorem lf_not_mem_dispSuffix (d : Half) : lf ∉ dispSuffix d := by
  unfold dispSuffix
  split
  all_goals exact List.not_mem_append (by decide) (lf_not_mem_dec _)

theorem lf_not_mem_brackets {text : Text} (h : lf ∉ text) : lf ∉ "[".toList ++ text ++ "]".toList :=
  List.not_mem_append (List.not_mem_append (by decide) h) (by decide)

theorem lf_not_mem_memText (ea : EA) : lf ∉ memText ea := by
  cases ea with
  | direct a => exact lf_not_mem_brackets (lf_not_mem_dec _)
  | based rm => exact lf_not_mem_brackets (lf_not_mem_baseExpr rm)
  | basedDisp rm d =>
    rw [memText]
    split
    · decide
    · rw [List.append_assoc "[".toList]
      exact lf_not_mem_brackets (List.not_mem_append (lf_not_mem_baseExpr rm) (lf_not_mem_dispSuffix d))

theorem lf_not_mem_keywordText (kw : Option Width) : lf ∉ keywordText kw := by
  match kw with
  | none | some .byte | some .word => decide

theorem lf_not_mem_opText (o : Operand) : lf ∉ opText o := by
  cases o with
  | reg key => exact lf_not_mem_regName key
  | mem ea kw => exact List.not_mem_append (lf_not_mem_keywordText kw) (lf_not_mem_memText ea)
  | imm v width => exact lf_not_mem_dec v.toNat

theorem lf_not_mem_operandText (o : Option Operand) : lf ∉ operandText o := by
  cases o with
  | none => exact List.not_mem_nil
  | some o => exact lf_not_mem_opText o

theorem lf_not_mem_movLine (dst src : Option Operand) :
    lf ∉ "mov ".toList ++ operandText dst ++ ", ".toList ++ operandText src :=
  List.not_mem_append
    (List.not_mem_append (List.not_mem_append (by decide) (lf_not_mem_operandText dst)) (by decide))
    (lf_not_mem_operandText src)

theorem lf_not_mem_line (r : Record) : lf ∉ line r := by
  unfold line
  split
  case h_1 | h_2 | h_3 => exact lf_not_mem_movLine r.dst r.src
  all_goals exact lf_not_mem_lineText _

/-- Settles O47: the OPEN texts hold no LF, and no text that a line is made of holds one. -/
theorem linesHoldNoLineFeed : Obligations.LinesHoldNoLineFeed := by
  refine ⟨lf_not_mem_lineText _, fun verbose r => List.not_mem_append (lf_not_mem_line r) ?_⟩
  cases verbose with
  | false => exact List.not_mem_nil
  | true => exact lf_not_mem_lineText _

end Sys2Proof.Machine
end

section
/-! The invariant of the block (10_state.md, 20_memory.md, 60_exceptions.md): it holds after reset, and every step and
every host action keeps it, and with it the capacity `L_MAX` that bounds the positions. -/

namespace Sys2Proof.Machine

/-! ### The fields of a record -/

/-- An r/m operand has a displacement field exactly where R75 gives it displacement or address bytes. -/
theorem rmDisp_isSome {m : RmForm} (hm : m.wellFormed = true) :
    (rmDisp m).isSome = (dispLen m.mode m.rm != 0) := by
  cases m with
  | based rm =>
    have h6 : rm ≠ 0b110#3 := bne_iff_ne.1 hm
    simp [rmDisp, RmForm.mode, RmForm.rm, dispLen, h6]
  | reg rm | direct a | based8 rm d | based16 rm d => rfl

theorem recordRmReg_fieldsPresent {op : Byte} {reg : BitVec 3} {m : RmForm} {p : Nat} (hm : m.wellFormed = true)
    (hlen : 1 ≤ (recordRmReg op reg m p).len ∧ (recordRmReg op reg m p).len ≤ 6) :
    (recordRmReg op reg m p).fieldsPresent :=
  ⟨hlen, rfl, rfl, rfl, rfl, rfl, rmDisp_isSome hm, rfl, rfl, rfl⟩

theorem recordImmRm_fieldsPresent {op : Byte} {m : RmForm} {imm : Half} {p : Nat} (hm : m.wellFormed = true)
    (hlen : 1 ≤ (recordImmRm op m imm p).len ∧ (recordImmRm op m imm p).len ≤ 6) :
    (recordImmRm op m imm p).fieldsPresent :=
  ⟨hlen, rfl, rfl, rfl, rfl, rfl, rmDisp_isSome hm, rfl, rfl, rfl⟩

/-- The record of a well-formed instruction has the fields that R30 gives its kind. -/
theorem recordOf_fieldsPresent {i : Instr} {p : Nat} {r : Record} (hw : i.wellFormed = true)
    (h : recordOf i p = some r) : r.fieldsPresent := by
  have hlen : 1 ≤ r.len ∧ r.len ≤ 6 := by
    rw [recordOf_len h]
    exact ⟨length_pos i, length_le i⟩
  cases i <;> cases h
  case movRm8R8 | movRm16R16 | movR8Rm8 | movR16Rm16 => exact recordRmReg_fieldsPresent hw hlen
  case movRm8Imm8 | movRm16Imm16 => exact recordImmRm_fieldsPresent hw hlen
  case movRImm | phMemToAcc | phAccToMem | phRmToSreg | phSregToRm =>
    exact ⟨hlen, rfl, rfl, rfl, rfl, rfl, rfl, rfl, rfl, rfl⟩

/-! ### The order of the records -/

theorem Record.inOrder_nil (limit : Nat) : Record.inOrder [] limit := by
  simp [Record.inOrder]

theorem Record.inOrder_mono {out : List Record} {limit limit' : Nat} (h : Record.inOrder out limit)
    (hle : limit ≤ limit') : Record.inOrder out limit' :=
  ⟨h.1, fun r hr => Nat.le_trans (h.2 r hr) hle⟩

/-- A record that begins where the earlier ones end continues their order. -/
theorem Record.inOrder_concat {out : List Record} {r : Record} (h : Record.inOrder out r.pos) :
    Record.inOrder (out ++ [r]) (r.pos + r.len) := by
  obtain ⟨hpair, hbound⟩ := h
  refine ⟨List.pairwise_append.2 ⟨hpair, List.pairwise_singleton _ _, fun r₁ h₁ r₂ h₂ => ?_⟩, fun r' hr' => ?_⟩
  · rw [List.mem_singleton.1 h₂]
    exact hbound r₁ h₁
  · obtain hr' | hr' := List.mem_append.1 hr'
    · exact Nat.le_add_right_of_le (hbound r' hr')
    · rw [List.mem_singleton.1 hr']

/-! ### Each effect of a step keeps the invariant -/

theorem State.Inv.finish {s : State} (h : s.Inv) (hr : s.st = .run) : s.finish.Inv where
  bufWf := h.bufWf
  curInInput := by simp
  idleClean := by simp
  faultRegs := fun _ => h.faultRegs (by simp [hr])
  faultEntry := by simp
  recordFields := h.recordFields
  recordOrder := h.recordOrder

theorem State.Inv.commit {s : State} {r : Record} (h : s.Inv) (hr : s.st = .run) (hpos : r.pos = s.cur)
    (hfit : s.cur + r.len ≤ s.inputLen) (hfields : r.fieldsPresent) : (s.commit r).Inv where
  bufWf := h.bufWf
  curInInput := fun _ => hfit
  idleClean := by simp [hr]
  faultRegs := fun _ => h.faultRegs (by simp [hr])
  faultEntry := by simp [hr]
  recordFields := fun r' hr' => by
    obtain hr' | hr' := List.mem_append.1 hr'
    · exact h.recordFields r' hr'
    · rwa [List.mem_singleton.1 hr']
  recordOrder := by
    rw [State.commit_out, State.commit_cur, ← hpos]
    exact Record.inOrder_concat (hpos ▸ h.recordOrder)

theorem State.Inv.skip {s : State} (h : s.Inv) (hr : s.st = .run) (hc : s.cur < s.inputLen) : s.skip.Inv where
  bufWf := h.bufWf
  curInInput := fun _ => hc
  idleClean := by simp [hr]
  faultRegs := fun _ => h.faultRegs (by simp [hr])
  faultEntry := by simp [hr]
  recordFields := h.recordFields
  recordOrder := Record.inOrder_mono h.recordOrder (Nat.le_succ _)

theorem State.Inv.raise {s : State} {k : FaultKind} (h : s.Inv) (hk : k ≠ .none) : (s.raise k).Inv where
  bufWf := h.bufWf
  curInInput := by simp
  idleClean := by simp
  faultRegs := by simp
  faultEntry := fun _ => ⟨hk, rfl⟩
  recordFields := h.recordFields
  recordOrder := h.recordOrder

/-- Settles O52: each of a step's five effects keeps the invariant. -/
theorem stepKeepsInvariant : Obligations.StepKeepsInvariant := by
  intro s t h hstep
  obtain ⟨hr, ⟨-, rfl⟩ | ⟨-, bs, i, r, hb, hd, hrec, rfl⟩ | ⟨hc, _, -, -, -, rfl⟩ | ⟨-, _, -, -, -, rfl⟩ |
    ⟨-, -, rfl⟩⟩ := step_effects hstep
  · exact h.finish hr
  · have hlen : bs.length = r.len := by simpa [recordOf_len hrec] using decode_length hd
    exact h.commit hr (recordOf_pos hrec) (hlen ▸ hb.1) (recordOf_fieldsPresent (decode_wellFormed hd) hrec)
  · exact h.skip hr hc
  · exact h.raise (by decide)
  · exact h.raise (by decide)

/-! ### Each host action keeps the invariant -/

/-- Settles O51: the buffer and the records are empty, and the cursor and the fault registers 0. -/
theorem resetStateMeetsInvariant : Obligations.ResetStateMeetsInvariant where
  bufWf := State.reset_buf_wf
  curInInput := fun _ => Nat.le_refl 0
  idleClean := fun _ => ⟨rfl, rfl⟩
  faultRegs := fun _ => ⟨rfl, rfl⟩
  faultEntry := by decide
  recordFields := fun _ hr => absurd hr List.not_mem_nil
  recordOrder := Record.inOrder_nil 0

theorem State.Inv.hostReset {s : State} (h : s.Inv) : s.hostReset.Inv where
  bufWf := h.bufWf
  curInInput := by simp
  idleClean := fun _ => ⟨rfl, rfl⟩
  faultRegs := fun _ => ⟨rfl, rfl⟩
  faultEntry := by simp
  recordFields := by simp
  recordOrder := Record.inOrder_nil 0

/-- Start keeps the invariant because IDLE holds no record. -/
theorem State.Inv.started {s : State} (h : s.Inv) (hi : s.st = .idle) : s.started.Inv where
  bufWf := h.bufWf
  curInInput := fun _ => Nat.zero_le _
  idleClean := by simp
  faultRegs := fun _ => ⟨rfl, rfl⟩
  faultEntry := by simp
  recordFields := h.recordFields
  recordOrder := by
    rw [State.started_out, (h.idleClean hi).2]
    exact Record.inOrder_nil 0

/-- Outside RUN, where the cursor is not tied to `L`, a canonical buffer and any `L` and configuration keep it. -/
theorem State.Inv.hostWrite {s : State} (h : s.Inv) (hr : s.st ≠ .run) {buf : Memory} (hbuf : buf.wf) (n : Nat)
    (abort verbose : Bool) :
    { s with buf := buf, inputLen := n, cfgUnknownAbort := abort, cfgVerbose := verbose : State }.Inv where
  bufWf := hbuf
  curInInput := fun hrun => absurd hrun hr
  idleClean := h.idleClean
  faultRegs := h.faultRegs
  faultEntry := h.faultEntry
  recordFields := h.recordFields
  recordOrder := h.recordOrder

/-- Settles O53: reset and start as above, and each write outside RUN by `State.Inv.hostWrite`. -/
theorem hostActionKeepsInvariant : Obligations.HostActionKeepsInvariant := by
  intro a s t h hact
  obtain ⟨-, rfl⟩ | ⟨-, hi, rfl⟩ | ⟨-, -, rfl⟩ | ⟨hr, ⟨i, v, -, -, rfl⟩ | ⟨n, -, -, rfl⟩ | ⟨v, -, rfl⟩ | ⟨v, -, rfl⟩⟩ :=
    hostAct_cases hact
  · exact h.hostReset
  · exact h.started hi
  · exact h
  · exact h.hostWrite hr (Memory.write_wf i v h.bufWf) s.inputLen s.cfgUnknownAbort s.cfgVerbose
  · exact h.hostWrite hr h.bufWf n s.cfgUnknownAbort s.cfgVerbose
  · exact h.hostWrite hr h.bufWf s.inputLen v s.cfgVerbose
  · exact h.hostWrite hr h.bufWf s.inputLen s.cfgUnknownAbort v

/-! ### The capacity -/

/-- A value within the capacity fits `CUR_W` bits (00_scope.md R6). -/
theorem lt_two_pow_curW {n : Nat} (h : n ≤ Config.lMax) : n < 2 ^ Config.curW :=
  calc n ≤ Config.lMax := h
    _ < 2 ^ Config.lMax.size := Nat.lt_size_self _
    _ ≤ 2 ^ Config.curW := Nat.pow_le_pow_right (by decide) (Nat.le_add_right _ _)

/-- A step keeps the positions within the capacity: they stay within the input. -/
theorem State.fits_of_step {s t : State} (h : s.fits) (hstep : step s = .next t) : t.fits := by
  obtain ⟨hlen, hcur, hpos⟩ := h
  have htlen := step_inputLen hstep
  have htcur : t.cur ≤ Config.lMax := by
    obtain ⟨-, hcur'⟩ | ⟨-, hcur'⟩ | ⟨-, -, hcur'⟩ := step_progress hstep <;> omega
  have htpos : t.faultPos ≤ Config.lMax := by
    obtain ⟨-, hpos'⟩ | ⟨-, -, hpos'⟩ := step_faultRegisters hstep <;> omega
  exact ⟨htlen ▸ hlen, htcur, htpos⟩

theorem State.fits_of_hostAct {a : HostAction} {s t : State} (h : s.fits) (hact : hostAct a s = .next t) :
    t.fits := by
  obtain ⟨hlen, hcur, hpos⟩ := h
  obtain ⟨-, rfl⟩ | ⟨-, -, rfl⟩ | ⟨-, -, rfl⟩ | ⟨-, ⟨_, _, -, -, rfl⟩ | ⟨n, -, hn, rfl⟩ | ⟨_, -, rfl⟩ | ⟨_, -, rfl⟩⟩ :=
    hostAct_cases hact
  · exact ⟨hlen, Nat.zero_le _, Nat.zero_le _⟩
  · exact ⟨hlen, Nat.zero_le _, Nat.zero_le _⟩
  · exact ⟨hlen, hcur, hpos⟩
  · exact ⟨hlen, hcur, hpos⟩
  · exact ⟨hn, hcur, hpos⟩
  · exact ⟨hlen, hcur, hpos⟩
  · exact ⟨hlen, hcur, hpos⟩

/-- Settles O54: steps stay within the input, the host writes no length beyond `L_MAX`, and `CUR_W` covers `L_MAX`. -/
theorem positionsFitTheirRegisters : Obligations.PositionsFitTheirRegisters := by
  refine ⟨⟨Nat.zero_le _, Nat.zero_le _, Nat.zero_le _⟩, fun e s t _ hfits he => ?_,
    fun s ⟨_, hcur, hpos⟩ => ⟨lt_two_pow_curW hcur, lt_two_pow_curW hpos⟩⟩
  cases e with
  | decoderStep => exact State.fits_of_step hfits he
  | host a => exact State.fits_of_hostAct hfits he

end Sys2Proof.Machine
end

section
/-! The run as a whole: its records and the bytes it skips cover the input (10_state.md R36), and it is the linear sweep
of the input's bytes (40_decode_cycle.md). -/

namespace Sys2Proof.Machine

/-! ### What lies between two records -/

/-- No row matches any byte from `a` up to `b`. -/
def Memory.unknownBetween (m : Memory) (a b : Nat) : Prop := ∀ x, a ≤ x → x < b → classify (m.read x) = none

theorem Memory.unknownBetween_self (m : Memory) (a : Nat) : m.unknownBetween a a := by
  intro x hax hxa
  omega

theorem Memory.unknownBetween_succ {m : Memory} {a b : Nat} (h : m.unknownBetween a b)
    (hb : classify (m.read b) = none) : m.unknownBetween a (b + 1) := by
  intro x hax hxb
  obtain hlt | rfl : x < b ∨ x = b := by omega
  · exact h x hax hlt
  · exact hb

/-- The record `r₂` is the next after `r₁`: it begins later, does not overlap it, and only unknown bytes lie between
(R36). -/
def Record.nextIn (m : Memory) (r₁ r₂ : Record) : Prop :=
  r₁.pos < r₂.pos ∧ r₁.pos + r₁.len ≤ r₂.pos ∧ m.unknownBetween (r₁.pos + r₁.len) r₂.pos

/-- The records follow one another, and after the last of them only unknown bytes lie before the cursor. -/
def State.gapless (s : State) : Prop :=
  s.out.IsChain (Record.nextIn s.buf) ∧
    ∀ r ∈ s.out.getLast?, 1 ≤ r.len ∧ r.pos + r.len ≤ s.cur ∧ s.buf.unknownBetween (r.pos + r.len) s.cur

/-- A record at the cursor is next to the last one before it. -/
theorem State.gapless.commit {s : State} {r : Record} (h : s.gapless) (hpos : r.pos = s.cur) (hlen : 1 ≤ r.len) :
    (s.commit r).gapless := by
  obtain ⟨hchain, hlast⟩ := h
  refine ⟨List.isChain_append.2 ⟨hchain, List.isChain_singleton r, fun r₁ h₁ r₂ h₂ => ?_⟩, fun r' hr' => ?_⟩
  · obtain rfl : r = r₂ := by simpa using h₂
    obtain ⟨hlen₁, hend, hgap⟩ := hlast r₁ h₁
    rw [← hpos] at hend hgap
    exact ⟨by omega, hend, hgap⟩
  · obtain rfl : r = r' := by simpa using hr'
    rw [State.commit_cur, ← hpos]
    exact ⟨hlen, Nat.le_refl _, Memory.unknownBetween_self _ _⟩

theorem State.gapless.skip {s : State} (h : s.gapless) (hk : classify (s.buf.read s.cur) = none) :
    s.skip.gapless := by
  obtain ⟨hchain, hlast⟩ := h
  refine ⟨hchain, fun r hr => ?_⟩
  obtain ⟨hlen, hend, hgap⟩ := hlast r hr
  exact ⟨hlen, Nat.le_succ_of_le hend, Memory.unknownBetween_succ hgap hk⟩

theorem step_keeps_gapless {s t : State} (h : s.gapless) (hstep : step s = .next t) : t.gapless := by
  obtain ⟨-, ⟨-, rfl⟩ | ⟨-, _, i, r, -, -, hrec, rfl⟩ | ⟨-, _, hb, hk, -, rfl⟩ | ⟨-, _, -, -, -, rfl⟩ | ⟨-, -, rfl⟩⟩ :=
    step_effects hstep
  · exact h
  · exact h.commit (recordOf_pos hrec) (by rw [recordOf_len hrec]; exact length_pos i)
  · exact h.skip (by rwa [State.read_cur_of_bytes hb])
  · exact h
  · exact h

/-- A run leaves no gap but of unknown bytes, and does not write the buffer. -/
theorem decodeRun_keeps_gapless {k : Nat} {s t : State} (h : decodeRun k s = .next t) :
    (s.gapless → t.gapless) ∧ t.buf = s.buf := by
  refine decodeRun_induct (P := fun s t => (s.gapless → t.gapless) ∧ t.buf = s.buf)
    (fun s => ⟨id, rfl⟩) (fun s t u _ hst ih => ?_) h
  obtain ⟨hgap, hbuf⟩ := ih
  exact ⟨fun hs => hgap (step_keeps_gapless hs hst), hbuf.trans (step_buf hst)⟩

/-! ### The sum of the lengths -/

/-- The bytes that the records cover. -/
def State.recordedBytes (s : State) : Nat := (s.out.map (·.len)).sum

/-- A fetched instruction makes the step a skip exactly where it has no record and the skip setting is on. -/
theorem State.skips_of_fetch {s : State} {i : Instr} (hr : s.st = .run) (hc : s.cur < s.inputLen)
    (hf : s.fetch = .instr i) : s.skips = ((recordOf i s.cur).isNone && !s.cfgUnknownAbort) := by
  rw [State.skips, hr, hf]
  cases i <;> simp [hc, recordOf]

@[simp] theorem State.recordedBytes_finish (s : State) : s.finish.recordedBytes = s.recordedBytes := rfl

@[simp] theorem State.recordedBytes_skip (s : State) : s.skip.recordedBytes = s.recordedBytes := rfl

@[simp] theorem State.recordedBytes_raise (s : State) (k : FaultKind) :
    (s.raise k).recordedBytes = s.recordedBytes := rfl

@[simp] theorem State.recordedBytes_commit (s : State) (r : Record) :
    (s.commit r).recordedBytes = s.recordedBytes + r.len := by
  simp [State.recordedBytes]

/-- A step advances the cursor by the bytes that it records or skips. -/
theorem step_recordedBytes {s t : State} (h : step s = .next t) :
    t.recordedBytes + (if s.skips then 1 else 0) + s.cur = s.recordedBytes + t.cur := by
  obtain ⟨hr, ⟨hc, rfl⟩ | ⟨hc, i, hf, he⟩ | ⟨hc, hf, rfl⟩⟩ := step_cases h
  · have hskips : s.skips = false := by simp [State.skips, hc]
    simp [hskips]
  · rw [State.skips_of_fetch hr hc hf]
    obtain ⟨r, hrec, hx⟩ | ⟨r, hrec, -, hx⟩ | ⟨hrec, hskip, hx⟩ | ⟨hrec, habort, hx⟩ := exec_cases i s
    all_goals cases he.symm.trans hx
    · simp [hrec, Nat.add_right_comm, Nat.add_assoc]
    · simp [hrec]
    · simp [hrec, hskip, Nat.add_right_comm, Nat.add_assoc]
    · simp [hrec, habort]
  · have hskips : s.skips = false := by simp [State.skips, hf]
    simp [hskips]

/-- A run advances the cursor by the bytes that it records or skips. -/
theorem decodeRun_recordedBytes {k : Nat} {s t : State} (h : decodeRun k s = .next t) :
    t.recordedBytes + skippedBytes k s + s.cur = s.recordedBytes + t.cur := by
  induction k generalizing s with
  | zero =>
    cases h
    rfl
  | succ k ih =>
    by_cases hr : s.st = .run
    · cases hst : step s with
      | next u =>
        rw [decodeRun_step k hr hst] at h
        have hrun := ih h
        have hone := step_recordedBytes hst
        simp only [skippedBytes, hst]
        omega
      | fault e => simp [decodeRun, hr, hst] at h
      | refused e => simp [decodeRun, hr, hst] at h
    · rw [decodeRun_not_run _ hr] at h
      cases h
      simp [skippedBytes, step_not_run hr, State.skips, hr]

/-- A run that ends in DONE ends at `L`. -/
theorem decodeRun_done_at_end {k : Nat} {s t : State} (hr : s.st = .run) (h : decodeRun k s = .next t)
    (hdone : t.st = .done) : t.cur = s.inputLen := by
  suffices (s.st = .done → s.cur = s.inputLen) → t.st = .done → t.cur = s.inputLen from
    this (by simp [hr]) hdone
  refine decodeRun_induct
    (P := fun s t => (s.st = .done → s.cur = s.inputLen) → t.st = .done → t.cur = s.inputLen)
    (fun s hs => hs) (fun s t u _ hst ih _ hu => ?_) h
  rw [← step_inputLen hst]
  refine ih (fun ht => ?_) hu
  obtain ⟨hc, rfl⟩ := step_done hst ht
  exact hc

/-- Settles O55: `gapless` along the run gives the order and the gaps, and the sum is the cursor's way from 0 to `L`. -/
theorem recordsAndSkippedBytesCoverInput : Obligations.RecordsAndSkippedBytesCoverInput := by
  intro k s t hr hcur hout h
  obtain ⟨hkeep, hbuf⟩ := decodeRun_keeps_gapless h
  have hstart : s.gapless := by simp [State.gapless, hout]
  obtain ⟨hchain, -⟩ := hkeep hstart
  rw [hbuf] at hchain
  refine ⟨fun n r₁ r₂ h₁ h₂ => ?_, fun hdone => ?_⟩
  · obtain ⟨hn₁, rfl⟩ := List.getElem?_eq_some_iff.1 h₁
    obtain ⟨hn₂, rfl⟩ := List.getElem?_eq_some_iff.1 h₂
    exact List.isChain_iff_getElem.1 hchain n hn₂
  · have hsum := decodeRun_recordedBytes h
    have hend := decodeRun_done_at_end hr h hdone
    simp only [State.recordedBytes, hout, hcur, List.map_nil, List.sum_nil] at hsum
    omega

/-! ### The linear sweep -/

theorem sweep_of_error {abort : Bool} {fuel p : Nat} {b : Byte} {bs : List Byte} {e : DecodeError}
    (hd : decode (b :: bs) = .error e) : sweep abort (fuel + 1) p (b :: bs) = ⟨[], .fault, .truncated, p⟩ := by
  rw [sweep, hd]

theorem sweep_of_record {abort : Bool} {fuel p : Nat} {b : Byte} {bs rest : List Byte} {i : Instr} {r : Record}
    (hd : decode (b :: bs) = .ok (i, rest)) (hrec : recordOf i p = some r) :
    sweep abort (fuel + 1) p (b :: bs) =
      { sweep abort fuel (p + i.length) rest with out := r :: (sweep abort fuel (p + i.length) rest).out } := by
  rw [sweep, hd]
  simp only [hrec]

theorem sweep_of_unknown {abort : Bool} {fuel p : Nat} {b op : Byte} {bs rest : List Byte}
    (hd : decode (b :: bs) = .ok (.unknownOpcode op, rest)) :
    sweep abort (fuel + 1) p (b :: bs) =
      if abort then ⟨[], .fault, .unknownOpcode, p⟩ else sweep abort fuel (p + 1) rest := by
  rw [sweep, hd]
  rfl

/-- Where the bytes at the cursor decode, the step runs what they decode to, and the bytes left over stand after it. -/
theorem step_of_decode {s : State} {bs rest : List Byte} {i : Instr} (hr : s.st = .run) (hb : s.bytesAtCursor bs)
    (hd : decode bs = .ok (i, rest)) :
    step s = exec i s ∧ s.cur + i.length ≤ s.inputLen ∧ (s.setCur (s.cur + i.length)).bytesAtCursor rest := by
  obtain ⟨front, rfl, hfront⟩ := decode_front hd
  have hlen : front.length = i.length := by simpa using decode_length hfront
  have hbfront := State.bytesAtCursor_append hb
  exact ⟨step_of_bytes hr hbfront hfront, hlen ▸ hbfront.1, hlen ▸ State.bytesAtCursor_setCur hb⟩

/-- From any cursor, a run appends the records of the sweep over the bytes left, and its registers end as those of
the sweep. -/
theorem decodeRun_eq_sweep (k : Nat) {s : State} {input : List Byte} (hr : s.st = .run) (hkind : s.faultKind = .none)
    (hb : s.bytesAtCursor input) (hend : s.cur + input.length = s.inputLen) :
    ∃ t rs, decodeRun k s = .next t ∧ t.out = s.out ++ rs ∧
      sweep s.cfgUnknownAbort k s.cur input = ⟨rs, t.st, t.faultKind, t.cur⟩ := by
  induction k generalizing s input with
  | zero => exact ⟨s, [], rfl, by simp, by rw [hr, hkind]; rfl⟩
  | succ k ih =>
    cases input with
    | nil =>
      have hstep : step s = .next s.finish := step_at_end hr hend
      exact ⟨s.finish, [], decodeRun_of_last_step k hr hstep (by simp), by simp, by simp [sweep, hkind]⟩
    | cons b bs =>
      have hc : s.cur < s.inputLen := by rw [List.length_cons] at hend; omega
      cases hd : decode (b :: bs) with
      | error e =>
        have hstep : step s = .next (s.raise .truncated) :=
          step_of_truncated hr hc (State.fetch_truncated_of_bytes hb hend hd)
        exact ⟨_, [], decodeRun_of_last_step k hr hstep (by simp), by simp, sweep_of_error hd⟩
      | ok p =>
        obtain ⟨i, rest⟩ := p
        obtain ⟨hexec, hfit, hbrest⟩ := step_of_decode hr hb hd
        have hendrest : s.cur + i.length + rest.length = s.inputLen := by rw [decode_length hd] at hend; omega
        cases hrec : recordOf i s.cur with
        | some r =>
          have hstep : step s = .next (s.commit r) := hexec.trans (exec_fits hrec hfit)
          rw [← recordOf_len hrec] at hbrest hendrest
          obtain ⟨t, rs, hrun, hout, hsweep⟩ := ih (s := s.commit r) hr hkind hbrest hendrest
          rw [State.commit_cur, State.commit_cfgUnknownAbort, recordOf_len hrec] at hsweep
          refine ⟨t, r :: rs, (decodeRun_step k hr hstep).trans hrun, by simp [hout], ?_⟩
          rw [sweep_of_record hd hrec, hsweep]
        | none =>
          obtain ⟨op, rfl⟩ := (recordOf_eq_none_iff i s.cur).1 hrec
          rw [sweep_of_unknown hd]
          cases habort : s.cfgUnknownAbort with
          | true =>
            have hstep : step s = .next (s.raise .unknownOpcode) := hexec.trans (execUnknownOpcode_abort habort)
            exact ⟨_, [], decodeRun_of_last_step k hr hstep (by simp), by simp, rfl⟩
          | false =>
            have hstep : step s = .next s.skip := hexec.trans (execUnknownOpcode_skip habort)
            obtain ⟨t, rs, hrun, hout, hsweep⟩ := ih (s := s.skip) hr hkind hbrest hendrest
            rw [State.skip_cfgUnknownAbort, habort] at hsweep
            exact ⟨t, rs, (decodeRun_step k hr hstep).trans hrun, hout, hsweep⟩

/-- Settles O56: `decodeRun_eq_sweep` at offset 0, where the records are the sweep's alone. -/
theorem runIsLinearSweep : Obligations.RunIsLinearSweep := by
  intro k s input hr hcur hout hkind hlen hb
  obtain ⟨t, rs, hrun, hrs, hsweep⟩ := decodeRun_eq_sweep k hr hkind hb (by omega)
  obtain rfl : t.out = rs := by simpa [hout] using hrs
  exact ⟨t, hrun, by rwa [hcur] at hsweep⟩

end Sys2Proof.Machine
end
